-- ==== Sys2Proof/Word.lean ====
section
/-! DEFINITION. The word types of the engine: bytes, host-port words and addresses, rotation windows. -/

namespace Sys2Proof

/-- A byte: every memory element, phase and table entry (R6, R10: results stored into a byte are reduced mod 256). -/
abbrev Byte := BitVec 8

/-- A 32-bit host-port word: register data and command words (R6, R80). -/
abbrev Word := BitVec 32

/-- An 18-bit host byte address (R6, R51). -/
abbrev Addr := BitVec 18

/-- The 64-bit word made of the 8 bytes of a rotation window (R6, R160). -/
abbrev Window := BitVec 64

end Sys2Proof
end

