-- ==== Sys2Proof/Syntax.lean ====
section
/-! DEFINITION. The commands of the engine: one constructor per row of the opcode map (R83). -/

namespace Sys2Proof

/-- A command, as the engine decodes it from the data of one CMD write (R80, R83).  A phase is a byte, and
every byte is a legal phase; the round count of INIT is the 16-bit RNDS field, of which 0..1024 are
accepted (R82).  The buffer and secret lengths are no operands: they come from registers (R82). -/
inductive Instr where
  /-- `INIT R`: build a context from the secret, with round count `R` (R184). -/
  | init (rounds : BitVec 16)
  /-- `ENCRYPT` (R185). -/
  | encrypt
  /-- `DECRYPT` (R186). -/
  | decrypt
  /-- `WHITEN` (R142). -/
  | whiten
  /-- `SUBF p` (R152). -/
  | subf (phase : Byte)
  /-- `SUBR p` (R153). -/
  | subr (phase : Byte)
  /-- `ROTF p` (R169). -/
  | rotf (phase : Byte)
  /-- `ROTB p` (R170). -/
  | rotb (phase : Byte)
deriving DecidableEq, Repr

end Sys2Proof
end

