-- ==== Sys2Proof/Decode.lean ====
section
/-! DEFINITION. Decoding and encoding of command words (R80 to R87). -/

namespace Sys2Proof

/-- Why a command word is illegal (R84). -/
inductive IllegalWord where
  /-- The OP field is none of the opcode map's. -/
  | reservedOpcode
  /-- The OP is in the map, and its PHASE field, which must be zero, is not. -/
  | phaseNotZero
  /-- The OP is in the map, and its RNDS field, which must be zero, is not. -/
  | rndsNotZero
deriving DecidableEq, Repr

/-- The result of decoding a word: a command, or the reason why the word is illegal. -/
inductive Decoded where
  | command (i : Instr)
  | illegal (why : IllegalWord)
deriving DecidableEq, Repr

/-- OP, bits 7:0 (R81). -/
def opField (w : Word) : Byte := w.extractLsb' 0 8

/-- PHASE, bits 15:8 (R81). -/
def phaseField (w : Word) : Byte := w.extractLsb' 8 8

/-- RNDS, bits 31:16 (R81). -/
def rndsField (w : Word) : BitVec 16 := w.extractLsb' 16 16

/-- A word of format N: PHASE and RNDS must be zero (R81). -/
def formatN (w : Word) (i : Instr) : Decoded :=
  if phaseField w ≠ 0 then .illegal .phaseNotZero
  else if rndsField w ≠ 0 then .illegal .rndsNotZero
  else .command i

/-- A word of format P: RNDS must be zero, and PHASE is the operand (R81, R82). -/
def formatP (w : Word) (f : Byte → Instr) : Decoded :=
  if rndsField w ≠ 0 then .illegal .rndsNotZero else .command (f (phaseField w))

/-- A word of format I: PHASE must be zero, and RNDS is the operand (R81, R82). -/
def formatI (w : Word) (f : BitVec 16 → Instr) : Decoded :=
  if phaseField w ≠ 0 then .illegal .phaseNotZero else .command (f (rndsField w))

/-- Decoding: total on every 32-bit word, and reads no other state (R83, R84, R87). -/
def decode (w : Word) : Decoded :=
  if opField w = 0x01 then formatI w .init
  else if opField w = 0x02 then formatN w .encrypt
  else if opField w = 0x03 then formatN w .decrypt
  else if opField w = 0x10 then formatN w .whiten
  else if opField w = 0x11 then formatP w .subf
  else if opField w = 0x12 then formatP w .subr
  else if opField w = 0x13 then formatP w .rotf
  else if opField w = 0x14 then formatP w .rotb
  else .illegal .reservedOpcode

/-- The command of a legal word. -/
def Decoded.toOption : Decoded → Option Instr
  | .command i => some i
  | .illegal _ => none

/-- A row of the opcode map: a word `w` selects it when `(w and mask) = value` (R83). -/
structure OpRow where
  mnemonic : String
  value    : Word
  mask     : Word
deriving DecidableEq, Repr

/-- The opcode map's columns "mnemonic", "match" and "mask" (R83). -/
def opcodeMap : List OpRow :=
  [ { mnemonic := "INIT",    value := 0x00000001, mask := 0x0000FFFF }
  , { mnemonic := "ENCRYPT", value := 0x00000002, mask := 0xFFFFFFFF }
  , { mnemonic := "DECRYPT", value := 0x00000003, mask := 0xFFFFFFFF }
  , { mnemonic := "WHITEN",  value := 0x00000010, mask := 0xFFFFFFFF }
  , { mnemonic := "SUBF",    value := 0x00000011, mask := 0xFFFF00FF }
  , { mnemonic := "SUBR",    value := 0x00000012, mask := 0xFFFF00FF }
  , { mnemonic := "ROTF",    value := 0x00000013, mask := 0xFFFF00FF }
  , { mnemonic := "ROTB",    value := 0x00000014, mask := 0xFFFF00FF } ]

/-- `w` selects the row (R83). -/
def OpRow.selects (r : OpRow) (w : Word) : Bool := w &&& r.mask == r.value

/-- The mnemonic of a command (R83). -/
def mnemonicOf : Instr → String
  | .init _ => "INIT"
  | .encrypt => "ENCRYPT"
  | .decrypt => "DECRYPT"
  | .whiten => "WHITEN"
  | .subf _ => "SUBF"
  | .subr _ => "SUBR"
  | .rotf _ => "ROTF"
  | .rotb _ => "ROTB"

/-- The word of a command: the assembler's rows of R86. -/
def encode : Instr → Word
  | .init rounds => (rounds.setWidth 32 <<< 16) ||| 0x01
  | .encrypt => 0x00000002
  | .decrypt => 0x00000003
  | .whiten => 0x00000010
  | .subf p => (p.setWidth 32 <<< 8) ||| 0x11
  | .subr p => (p.setWidth 32 <<< 8) ||| 0x12
  | .rotf p => (p.setWidth 32 <<< 8) ||| 0x13
  | .rotb p => (p.setWidth 32 <<< 8) ||| 0x14

/-- The command word whose bits, numbered from bit 0, are the low `nbits` bits of `w`; a command is exactly one
32-bit word (R80, R85), so every bit above `nbits` is 0. -/
def tableWord (nbits w : Nat) : Word := BitVec.ofNat 32 (w % 2 ^ nbits)

/-- The command the decoder reads from an opcode-table word. -/
def decodeTableWord (nbits w : Nat) : Option Instr := (decode (tableWord nbits w)).toOption

end Sys2Proof
end

