-- ==== Sys2Proof/Machine/Sequencer.lean ====
section
/-! DEFINITION. The internal sequencer registers of the four units (R36 to R39), at the widths the spec gives
them, and the names of the five memories (R20). -/

namespace Sys2Proof.Machine

/-- The five memories of the engine (R20, R30 to R33). -/
inductive Bank where
  | secret
  | buf
  | key
  | fwd
  | inv
deriving DecidableEq, Repr

/-- The key schedule's registers (R36). -/
structure KsRegs where
  n      : BitVec 11
  acc    : Byte
  last   : Byte
  cursor : BitVec 8
  cur    : Byte
  mixfn  : Byte
  mixed  : Byte
deriving DecidableEq, Repr, Inhabited

/-- The table builder's registers (R37); `used` is the 256-bit marker set. -/
structure TbRegs where
  p         : BitVec 9
  m         : BitVec 9
  acc       : Byte
  cursor    : BitVec 10
  used      : BitVec 256
  candidate : Byte
  probes    : BitVec 9
  cur       : Byte
  mixfn     : Byte
  mixed     : Byte
deriving DecidableEq, Repr, Inhabited

/-- The rotation unit's registers (R38). -/
structure RotRegs where
  phase : Byte
  max   : BitVec 17
  start : BitVec 3
  sc    : BitVec 17
  w     : Window
  k     : BitVec 6
deriving DecidableEq, Repr, Inhabited

/-- The round orchestrator's registers (R39). -/
structure OrchRegs where
  r  : BitVec 11
  pA : Byte
  pB : Byte
deriving DecidableEq, Repr, Inhabited

/-- All internal sequencer registers (R20 part 3).  Their values between commands and after reset are
unspecified, and no rule reads one before its command writes it (section 5 of 10_state.md). -/
structure Sequencers where
  ks   : KsRegs
  tb   : TbRegs
  rot  : RotRegs
  orch : OrchRegs
deriving DecidableEq, Repr, Inhabited

end Sys2Proof.Machine
end

