-- ==== Sys2Proof/Config.lean ====
section
/-! DEFINITION. The fixed parameters of the engine (R6), its two open parameters (R7), and the free values: what the
spec calls unspecified, "a draw" (R42, R231).  The free values are opaque constants with no body, so no
proof can see one, and a claim about them is true whatever they are. -/

namespace Sys2Proof.Config

open Sys2Proof.Machine

/-- KEY_BYTES: the size of the key material K (R6). -/
abbrev keyBytes : Nat := 1024
/-- TABLES: the number of forward tables, and of inverse tables (R6). -/
abbrev tables : Nat := 256
/-- TABLE_ENTRIES: the entries of one table (R6). -/
abbrev tableEntries : Nat := 256
/-- SECRET_MAX: the largest secret length (R6, decision D9). -/
abbrev secretMax : Nat := 256
/-- BUF_MAX: the largest buffer length (R6, decision D10). -/
abbrev bufMax : Nat := 65536
/-- ROUNDS_MAX: the largest round count (R6, decision D11). -/
abbrev roundsMax : Nat := 1024

/-- WINDOW_BYTE_ORDER (R7, R160, decision D13). -/
inductive ByteOrder where
  | le
  | be
deriving DecidableEq, Repr

/-- ROT_AMOUNT_INDEX (R7, R162, decision D14). -/
inductive RotIndex where
  | tableWrap
  | flatForward
deriving DecidableEq, Repr

/-- The two open parameters of R7, which "the model takes … as an argument". -/
structure Params where
  byteOrder : ByteOrder
  rotIndex  : RotIndex
deriving DecidableEq, Repr

/-- The defaults of R7: `LE` and `TABLE_WRAP`. -/
def Params.default : Params := { byteOrder := .le, rotIndex := .tableWrap }

/-- The byte that position `i` of a memory holds after the reset number `epoch` until it is written: a draw,
"any byte at every position, with no relation between positions" (R231).  A FREE VALUE. -/
opaque freeByte (epoch : Nat) (bank : Bank) (i : Nat) : Byte

/-- The internal sequencer registers between commands and after reset: unspecified (R42 and section 5 of
10_state.md).  Each command that runs, and each reset, takes the next draw.  A FREE VALUE. -/
opaque freeSequencers (draw : Nat) : Sequencers

end Sys2Proof.Config
end

