-- ==== Sys2Proof/Machine/State.lean ====
section
/-! DEFINITION. The state of the machine as plain data: host-visible registers, memories, internal sequencer
registers (R20), and the host port's queue of transactions with the values it has returned (R8, R50, R65). -/

namespace Sys2Proof.Machine

open Sys2Proof.Config

/-- A memory: the bytes written since reset, as (index, byte) pairs with strictly rising indexes
(`Memory.wf`).  An index that is not listed has not been written: it has no value here, and a read of it
gives the free byte of its position (`byteAt`, R231). -/
abbrev Memory := List Host.Cell

/-- The result codes of STATUS.ERR (R200).  The reserved codes 6 to 15 are never produced, so they have no name. -/
inductive ErrCode where
  | ok
  | emptySecret
  | notInitialized
  | illegalCmd
  | roundsRange
  | lenRange
deriving DecidableEq, Repr

/-- What can happen at the engine's boundary: the four transactions of the host port (R50) and the reset
event (R230), which can arrive between transactions (`reset`) or while the command that a CMD write has
started runs (`resetDuring w`, R232). -/
inductive Event where
  /-- `RegWrite(off, v)`. -/
  | regWrite (off : Addr) (v : Word)
  /-- `RegRead(off)`. -/
  | regRead (off : Addr)
  /-- `MemWrite(addr, 1, v)`. -/
  | memWrite (addr : Addr) (v : Byte)
  /-- `MemRead(addr, 1)`. -/
  | memRead (addr : Addr)
  /-- A reset while no command runs (R230). -/
  | reset
  /-- A `RegWrite(0x000, w)` whose command a reset abandons (R232). -/
  | resetDuring (w : Word)
deriving DecidableEq, Repr

/-- The value a read transaction returns to the host (R50). -/
inductive Reply where
  /-- The word a `RegRead` returns. -/
  | word (v : Word)
  /-- The byte a `MemRead` returns. -/
  | byte (v : Byte)
deriving DecidableEq, Repr

/-- Why the machine stops with a fault. -/
inductive Fault where
  /-- The table builder took 256 probe steps at one slot without finding a free position (R125, decision D29,
  U4).  Raised by INIT.  Safe: the spec shows that it cannot happen (R125, R211). -/
  | probeExhausted
deriving DecidableEq, Repr

/-- Why a step has no meaning. -/
inductive Refusal where
  /-- The instruction of this mnemonic has no meaning yet.  Raised by `exec` only.  Safe. -/
  | notModelled (mnemonic : String)
  /-- A byte transaction to the register space (R52: "the model gives the transaction no meaning").  Raised by
  the host port.  Safe. -/
  | byteAccessToRegisterSpace (addr : Addr)
  /-- A register transaction at an offset of the register space that is no multiple of 4 (R52).  Raised by the
  host port.  Safe. -/
  | misalignedRegisterAccess (off : Addr)
  /-- A register transaction at an address outside the register space (R53).  Raised by the host port.  Safe. -/
  | registerAccessToMemorySpace (off : Addr)
deriving DecidableEq, Repr

/-- The state of the machine. -/
structure State where
  /-- The two open parameters (R7): fixed for the life of a machine (R20), no step changes them. -/
  params    : Params
  /-- STATUS.CTX_VALID (R24, R25). -/
  ctxValid  : Bool
  /-- STATUS.ERR (R24, R26). -/
  err       : ErrCode
  /-- SECRET_LEN.LEN (R27). -/
  secretLen : BitVec 16
  /-- BUF_LEN.LEN (R28). -/
  bufLen    : BitVec 17
  /-- ROUNDS.R (R29). -/
  rounds    : BitVec 11
  /-- SECRET, 256 bytes (R30). -/
  secret    : Memory
  /-- BUF, 65536 bytes (R31). -/
  buf       : Memory
  /-- K, 1024 bytes (R32). -/
  key       : Memory
  /-- FWD, the 256 forward tables: `F[p][m]` at index `256*p + m` (R33, R58). -/
  fwd       : Memory
  /-- INV, the 256 inverse tables: `Inv[p][m]` at index `256*p + m` (R33, R58). -/
  inv       : Memory
  /-- The internal sequencer registers (R36 to R39). -/
  seq       : Sequencers
  /-- The host port: the transactions and resets still to be performed, in the order of issue (R64, R65). -/
  port      : List Event
  /-- The values the read transactions have returned to the host, oldest first (R50, R64). -/
  replies   : List Reply
  /-- The model's own field: how many reset events have happened.  It selects the draw of the memories'
  unspecified contents (R231). -/
  epoch     : Nat
  /-- The model's own field: the number of the next draw of the sequencer registers. -/
  draws     : Nat
deriving DecidableEq, Repr

/-- The machine right after reset (R42, R230, R231): the registers at their reset values, every memory with
unspecified contents, the engine idle, no transaction issued.  The open parameters have their defaults (R7). -/
def State.reset : State where
  params    := Params.default
  ctxValid  := false
  err       := .ok
  secretLen := 0
  bufLen    := 0
  rounds    := 0
  secret    := []
  buf       := []
  key       := []
  fwd       := []
  inv       := []
  seq       := freeSequencers 0
  port      := []
  replies   := []
  epoch     := 0
  draws     := 1

end Sys2Proof.Machine
end

