-- ==== Sys2Proof/Machine/Ops.lean ====
section
/-! DEFINITION. The named operations over memories, windows and the state: reading and writing one byte, in-place
passes over the buffer, byte order of a window (R160), rotation of a word (R161), raising an error (R201),
ending a command (R202) and taking a reset (R230 to R232). -/

namespace Sys2Proof.Machine

open Sys2Proof.Config

/-! ### Memories as data -/

/-- The canonical form of a memory: indexes strictly rising.  (The second half of the form, no entry equal to
what an unlisted index reads as, is empty here: an unlisted index has no value of its own.) -/
abbrev Memory.wf (m : Memory) : Prop := m.Pairwise (fun x y => x.1 < y.1)

/-- The byte written at index `a`, or none where nothing has been written since reset.  This is the ONE
definition of what an unlisted index holds: no value. -/
def Memory.read (m : Memory) (a : Nat) : Option Byte := List.lookup a m

/-- Write byte `v` at index `a`. -/
def Memory.write : Memory → Nat → Byte → Memory
  | [], a, v => [(a, v)]
  | (b, w) :: t, a, v =>
    if a < b then (a, v) :: (b, w) :: t
    else if a = b then (a, v) :: t
    else (b, w) :: Memory.write t a v

/-- The memory whose bytes from index `i` on are `bs`, and which lists nothing else. -/
def Memory.ofBytesFrom (i : Nat) : List Byte → Memory
  | [] => []
  | v :: bs => (i, v) :: Memory.ofBytesFrom (i + 1) bs

/-- The memory whose bytes from index 0 on are `bs`. -/
def Memory.ofBytes (bs : List Byte) : Memory := Memory.ofBytesFrom 0 bs

/-- Write the bytes `bs` at the indexes 0, 1, …; every other index keeps its byte. -/
def Memory.writeFront (m : Memory) (bs : List Byte) : Memory :=
  Memory.ofBytes bs ++ m.filter (fun c => decide (bs.length ≤ c.1))

/-! ### Memories of the state -/

/-- The memory of that name (R20 part 2). -/
def bankOf (s : State) : Bank → Memory
  | .secret => s.secret
  | .buf => s.buf
  | .key => s.key
  | .fwd => s.fwd
  | .inv => s.inv

/-- The byte at index `i` of a memory: the byte written there, or its draw where nothing has been written since
the last reset (R231, R234).  Every read of a memory goes through this definition. -/
def byteAt (s : State) (b : Bank) (i : Nat) : Byte :=
  ((bankOf s b).read i).getD (freeByte s.epoch b i)

/-- The first `n` bytes of a memory, lowest index first. -/
def bytesAt (s : State) (b : Bank) (n : Nat) : List Byte := (List.range n).map (byteAt s b)

/-- `SECRET[i] <- v` (R55). -/
def setSecretByte (i : Nat) (v : Byte) (s : State) : State := { s with secret := s.secret.write i v }

/-- `BUF[i] <- v` (R56). -/
def setBufByte (i : Nat) (v : Byte) (s : State) : State := { s with buf := s.buf.write i v }

/-- Write the bytes `bs` to `BUF[0 .. length - 1]`: the end of an in-place pass over the buffer. -/
def setBufBytes (bs : List Byte) (s : State) : State := { s with buf := s.buf.writeFront bs }

/-- `K <- k; FWD <- f; INV <- g; ROUNDS.R <- r; STATUS.CTX_VALID <- 1`: the exclusive swap of the whole context
(R34, R184). -/
def loadContext (k f g : List Byte) (r : BitVec 11) (s : State) : State :=
  { s with key := Memory.ofBytes k, fwd := Memory.ofBytes f, inv := Memory.ofBytes g, rounds := r,
           ctxValid := true }

/-! ### Ending a command, taking a reset, the host port -/

/-- `raise Error(code)`: end the command with STATUS.ERR set and no other state changed (R11, R201). -/
def raiseError (code : ErrCode) (s : State) : State := { s with err := code }

/-- A command that raised no error ends with `STATUS.ERR <- 0` (R202), and leaves the sequencer registers
unspecified: the next draw (section 5 of 10_state.md). -/
def finish (s : State) : State :=
  { s with err := .ok, seq := freeSequencers s.draws, draws := s.draws + 1 }

/-- The reset event (R230, R231): registers at their reset values, no context, every memory's contents a new
draw, the engine idle.  The open parameters are no state (R20), and the host's transactions that are held
are performed after the reset, in their order (R232). -/
def takeReset (s : State) : State :=
  { State.reset with
    params := s.params, port := s.port, replies := s.replies,
    epoch := s.epoch + 1, seq := freeSequencers s.draws, draws := s.draws + 1 }

/-- Return a value to the host. -/
def reply (r : Reply) (s : State) : State := { s with replies := s.replies ++ [r] }

/-- Take the transaction at the head of the port, whose rest is `rest`. -/
def setPort (rest : List Event) (s : State) : State := { s with port := rest }

/-! ### Byte arithmetic and windows -/

/-- `mixfn` of the key schedule and of the table builder (R103, R123): the `+1` form on an odd index, the `-127`
form on an even one, reduced mod 256 (R10, R104). -/
def mixfn (index : Nat) (acc cur : Byte) : Byte :=
  if index % 2 = 1 then acc + cur + 1 else acc - cur - 127

/-- The index term `(x div 256) + (x mod 256)` reduced mod 256 (R103, R123). -/
def indexTerm (x : Nat) : Byte := BitVec.ofNat 8 (x / 256 + x % 256)

/-- The word whose least significant byte is the first byte of `bs`: `sum of bs[j] * 2^(8*j)` (R160). -/
def wordOfBytesLE (bs : List Byte) : Window :=
  bs.foldr (fun b w => (w <<< 8) ||| b.setWidth 64) 0

/-- The 8 bytes of a word, least significant first: byte `j` is `w[8*j + 7 : 8*j]` (R160). -/
def bytesOfWordLE (w : Window) : List Byte :=
  (List.range 8).map (fun j => (w >>> (8 * j)).setWidth 8)

/-- The word of a window's bytes under WINDOW_BYTE_ORDER (R160). -/
def wordOfBytes : ByteOrder → List Byte → Window
  | .le, bs => wordOfBytesLE bs
  | .be, bs => wordOfBytesLE bs.reverse

/-- The bytes of a window's word under WINDOW_BYTE_ORDER (R160). -/
def bytesOfWord : ByteOrder → Window → List Byte
  | .le, w => bytesOfWordLE w
  | .be, w => (bytesOfWordLE w).reverse

/-- `Win(off)` of the buffer `xs` (R160). -/
def readWindow (o : ByteOrder) (xs : List Byte) (off : Nat) : Window :=
  wordOfBytes o ((xs.drop off).take 8)

/-- `Win(off) <- w` (R160). -/
def writeWindow (o : ByteOrder) (xs : List Byte) (off : Nat) (w : Window) : List Byte :=
  xs.take off ++ bytesOfWord o w ++ xs.drop (off + 8)

/-- `rol64(w, k)` (R161); the amount 0 is the identity explicitly. -/
def rol64 (w : Window) (k : Nat) : Window :=
  if k = 0 then w else (w <<< k) ||| (w >>> (64 - k))

/-- `ror64(w, k)` (R161); the amount 0 is the identity explicitly. -/
def ror64 (w : Window) (k : Nat) : Window :=
  if k = 0 then w else (w >>> k) ||| (w <<< (64 - k))

end Sys2Proof.Machine
end

