-- ==== Sys2Proof/Machine/KeySchedule.lean ====
section
/-! DEFINITION. The key_schedule_engine unit: KS, the key-schedule function (R100 to R107). -/

namespace Sys2Proof.Machine

open Sys2Proof.Config

/-- `steps` steps of KS from step `n` on, with the registers `last`, `acc` and `cursor` as the step before left
them; the bytes `K'[n], K'[n+1], …` (R103). -/
def ksFrom (S : List Byte) : (steps n : Nat) → (last acc : Byte) → (cursor : Nat) → List Byte
  | 0, _, _, _, _ => []
  | steps + 1, n, last, acc, cursor =>
    let cur := S.getD cursor 0
    let mixed := indexTerm n ^^^ last ^^^ mixfn n acc cur
    mixed :: ksFrom S steps (n + 1) cur mixed ((cursor + 1) % S.length)

/-- KS: the 1024 bytes of key material of the secret `S` (R100), from the initial registers of R102. -/
def keySchedule (S : List Byte) : List Byte :=
  let last := S.getD (S.length - 1) 0
  ksFrom S 1024 0 last (last - S.getD 0 0) 0

end Sys2Proof.Machine
end

