-- ==== Sys2Proof/Machine/Flags.lean ====
section
/-! DEFINITION. The status: the codes of STATUS.ERR (R200), STATUS as the host reads it (R24), and the checks by
which a command that uses the context and the buffer reports NOT_INITIALIZED or LEN_RANGE (R203, R205, R208).
The engine has no other flags (R40). -/

namespace Sys2Proof.Machine

open Sys2Proof.Config

/-- The 4-bit code of an error (R200). -/
def ErrCode.code : ErrCode → BitVec 4
  | .ok => 0
  | .emptySecret => 1
  | .notInitialized => 2
  | .illegalCmd => 3
  | .roundsRange => 4
  | .lenRange => 5

/-- STATUS as a `RegRead` returns it: CTX_VALID in bit 0, ERR in bits 7:4, every other bit 0 (R24). -/
def statusWord (s : State) : Word :=
  (s.err.code.setWidth 32 <<< 4) ||| (BitVec.ofBool s.ctxValid).setWidth 32

/-- The checks of INIT, in their order (R184, R203); none where it may go on. -/
def initError (secretLength rounds : Nat) : Option ErrCode :=
  if secretLength = 0 then some .emptySecret
  else if 256 < secretLength then some .lenRange
  else if 1024 < rounds then some .roundsRange
  else none

/-- The checks of every other command, in their order (R203); none where it may go on. -/
def bufferError (ctxValid : Bool) (bufLength : Nat) : Option ErrCode :=
  if ctxValid = false then some .notInitialized
  else if 65536 < bufLength then some .lenRange
  else none

end Sys2Proof.Machine
end

