-- ==== Sys2Proof/Machine/Operands.lean ====
section
/-! DEFINITION. The operands the commands use: the lengths held in registers, the secret, the buffer, the key
material and the tables (R27 to R33, R82). -/

namespace Sys2Proof.Machine

open Sys2Proof.Config

/-- `ℓ = SECRET_LEN.LEN` (R27, R82). -/
def secretLength (s : State) : Nat := s.secretLen.toNat

/-- `L = BUF_LEN.LEN` (R28, R82). -/
def bufLength (s : State) : Nat := s.bufLen.toNat

/-- The secret `S`, the bytes `SECRET[0 .. ℓ-1]` (R30, R100). -/
def secretBytes (s : State) : List Byte := bytesAt s .secret (secretLength s)

/-- The buffer, the bytes `BUF[0 .. L-1]` (R31). -/
def bufBytes (s : State) : List Byte := bytesAt s .buf (bufLength s)

/-- `K[i]` (R32). -/
def keyByte (s : State) (i : Nat) : Byte := byteAt s .key i

/-- `F[p][m]` (R33, R58). -/
def fwdByte (s : State) (p m : Nat) : Byte := byteAt s .fwd (256 * p + m)

/-- `Inv[p][m]` (R33, R58). -/
def invByte (s : State) (p m : Nat) : Byte := byteAt s .inv (256 * p + m)

end Sys2Proof.Machine
end

