-- ==== Sys2Proof/Machine/Whitening.lean ====
section
/-! DEFINITION. The whitening_xor_complement unit (R140 to R142), and the shell that every command over the buffer
shares: checks, the pass over `BUF[0 .. L-1]`, the end of the command. -/

namespace Sys2Proof.Machine

open Sys2Proof.Config

/-- A command that transforms `BUF[0 .. L-1]` in place (R142, R152, R153, R169, R170, R185, R186): the checks
before any write, then the pass, then `STATUS.ERR <- 0`. -/
def runOnBuffer (pass : List Byte → List Byte) (s : State) : Host.Outcome State Fault Refusal :=
  match bufferError s.ctxValid (bufLength s) with
  | some e => .next (raiseError e s)
  | none => .next (finish (setBufBytes (pass (bufBytes s)) s))

/-- `Whiten(L)` on the buffer bytes (R140). -/
def whitenBytes (s : State) (xs : List Byte) : List Byte :=
  xs.mapIdx (fun i b => b ^^^ keyByte s (i % 1024) ^^^ 0xFF)

/-- WHITEN (R142). -/
def execWhiten (s : State) : Host.Outcome State Fault Refusal :=
  runOnBuffer (whitenBytes s) s

end Sys2Proof.Machine
end

