-- ==== Sys2Proof/Machine/Rotation.lean ====
section
/-! DEFINITION. The word_rotation_unit (R160 to R171). -/

namespace Sys2Proof.Machine

open Sys2Proof.Config

/-- `Amt(p, j)`: the rotation amount that table index `j` of phase `p` supplies (R162). -/
def rotAmount (s : State) (p j : Nat) : Nat :=
  let entry : Byte :=
    if j < 256 then fwdByte s p j
    else match s.params.rotIndex with
      | .tableWrap => fwdByte s p (j % 256)
      | .flatForward =>
        let t := (256 * p + j) % 65536
        fwdByte s (t / 256) (t % 256)
  (entry &&& 63).toNat

/-- `start = F[p][127] and 7`: the offset of the first interior window (R163). -/
def interiorStart (s : State) (p : Nat) : Nat := (fwdByte s p 127 &&& 7).toNat

/-- The offsets `sc = start, start+8, …` while `sc < max` (R163). -/
def interiorOffsets (start max : Nat) : List Nat :=
  (List.range ((max - start + 7) / 8)).map (fun i => start + 8 * i)

/-- `OpList(p, L)`: the window rotations, each an offset and an amount, in the order of rotate-forward (R163). -/
def opList (s : State) (p : Nat) (L : Nat) : List (Nat × Nat) :=
  if L < 8 then []
  else
    let max := L - 8
    [(0, rotAmount s p 0)]
      ++ (if 1 ≤ max then [(max - 1, rotAmount s p 1)] else [])
      ++ (interiorOffsets (interiorStart s p) max).map (fun sc => (sc, rotAmount s p (sc / 16)))

/-- `Win(off) <- rol64(Win(off), k)` (R164). -/
def rotateLeftAt (o : ByteOrder) (xs : List Byte) (op : Nat × Nat) : List Byte :=
  writeWindow o xs op.1 (rol64 (readWindow o xs op.1) op.2)

/-- `Win(off) <- ror64(Win(off), k)` (R165). -/
def rotateRightAt (o : ByteOrder) (xs : List Byte) (op : Nat × Nat) : List Byte :=
  writeWindow o xs op.1 (ror64 (readWindow o xs op.1) op.2)

/-- `RotFwd(p, L)` on the buffer bytes: the operations of OpList, first to last (R164, R167). -/
def rotFwd (s : State) (p : Byte) (xs : List Byte) : List Byte :=
  (opList s p.toNat xs.length).foldl (rotateLeftAt s.params.byteOrder) xs

/-- `RotBwd(p, L)` on the buffer bytes: the operations of OpList, last to first (R165, conflict C1). -/
def rotBwd (s : State) (p : Byte) (xs : List Byte) : List Byte :=
  (opList s p.toNat xs.length).reverse.foldl (rotateRightAt s.params.byteOrder) xs

/-- ROTF p (R169). -/
def execRotf (p : Byte) (s : State) : Host.Outcome State Fault Refusal :=
  runOnBuffer (rotFwd s p) s

/-- ROTB p (R170). -/
def execRotb (p : Byte) (s : State) : Host.Outcome State Fault Refusal :=
  runOnBuffer (rotBwd s p) s

end Sys2Proof.Machine
end

