-- ==== Sys2Proof/Machine/Substitution.lean ====
section
/-! DEFINITION. The byte_substitution_pipeline unit (R150 to R154). -/

namespace Sys2Proof.Machine

/-- `SubFwd(p, L)` on the buffer bytes (R150). -/
def subFwd (s : State) (p : Byte) (xs : List Byte) : List Byte :=
  xs.map (fun b => fwdByte s p.toNat b.toNat)

/-- `SubRev(p, L)` on the buffer bytes (R151). -/
def subRev (s : State) (p : Byte) (xs : List Byte) : List Byte :=
  xs.map (fun b => invByte s p.toNat b.toNat)

/-- SUBF p (R152). -/
def execSubf (p : Byte) (s : State) : Host.Outcome State Fault Refusal :=
  runOnBuffer (subFwd s p) s

/-- SUBR p (R153). -/
def execSubr (p : Byte) (s : State) : Host.Outcome State Fault Refusal :=
  runOnBuffer (subRev s p) s

end Sys2Proof.Machine
end

