-- ==== Sys2Proof/Machine/TableBuilder.lean ====
section
/-! DEFINITION. The substitution_table_builder unit: TB, the table-builder function (R120 to R128). -/

namespace Sys2Proof.Machine

open Sys2Proof.Config

/-- The table builder inside one phase: the accumulator and the cursor, which no phase resets (R121), the marker
set of this phase (R122), the entries `F'[p][0 .. m-1]` written so far, and `Inv'[p]`. -/
structure Slots where
  acc    : Byte
  cursor : Nat
  used   : BitVec 256
  f      : List Byte
  inv    : List Byte
deriving DecidableEq, Repr

/-- The table builder between two phases: the accumulator, the cursor, and the tables of the phases done, one
after the other. -/
structure Tables where
  acc    : Byte
  cursor : Nat
  fwd    : List Byte
  inv    : List Byte
deriving DecidableEq, Repr

/-- `while used[candidate] do candidate <- (candidate + 1) mod 256` (R123), none once `fuel` positions in a row
were found used: with 256 positions that is the source's logic error (R125, decision D29). -/
def probe (used : BitVec 256) : (fuel : Nat) → (candidate : Byte) → Option Byte
  | 0, _ => none
  | fuel + 1, candidate =>
    if used.getLsbD candidate.toNat then probe used fuel (candidate + 1) else some candidate

/-- One slot step of phase `p` at slot `m` (R123). -/
def slotStep (K : List Byte) (p : Nat) (t : Slots) (m : Nat) : Option Slots :=
  let cur := K.getD t.cursor 0
  let mixed := indexTerm p ^^^ mixfn p t.acc cur
  match probe t.used 256 mixed with
  | none => none
  | some c => some
    { acc := mixed
      cursor := (t.cursor + 1) % 1024
      used := t.used ||| (1#256 <<< c.toNat)
      f := t.f ++ [c]
      inv := t.inv.set c.toNat (BitVec.ofNat 8 m) }

/-- Phase `p`: clear the marker set (R122), then the slots 0..255 in ascending order (R123).  Every entry of
`Inv'[p]` is written by some slot (R126), so its initial bytes are never seen. -/
def buildPhase (K : List Byte) (p : Nat) (acc : Byte) (cursor : Nat) : Option Slots :=
  (List.range 256).foldlM (slotStep K p)
    { acc := acc, cursor := cursor, used := 0, f := [], inv := List.replicate 256 0 }

/-- One phase after another: the tables of phase `p` are put after those of the phases before it. -/
def phaseStep (K : List Byte) (t : Tables) (p : Nat) : Option Tables :=
  match buildPhase K p t.acc t.cursor with
  | none => none
  | some u => some { acc := u.acc, cursor := u.cursor, fwd := t.fwd ++ u.f, inv := t.inv ++ u.inv }

/-- TB: the 256 forward and 256 inverse tables of the key material `K` (R120), from the initial registers of R121;
none for the source's logic error, which cannot happen (R125, R211). -/
def buildTables (K : List Byte) : Option Tables :=
  (List.range 256).foldlM (phaseStep K)
    { acc := K.getD 1023 0 + K.getD 0 0 - 127, cursor := 0, fwd := [], inv := [] }

end Sys2Proof.Machine
end

