-- ==== Sys2Proof/Machine/Cipher.lean ====
section
/-! DEFINITION. The cipher_round_orchestrator (R180 to R188): the round functions, and the commands INIT, ENCRYPT and
DECRYPT. -/

namespace Sys2Proof.Machine

open Sys2Proof.Config

/-- `pA = K[r]`: the phase of substitution and forward rotation in round `r` (R180, R182). -/
def phaseA (s : State) (r : Nat) : Byte := keyByte s r

/-- `pB = K[(r + 512) mod 1024]`: the phase of the counter-rotation in round `r` (R180, R182). -/
def phaseB (s : State) (r : Nat) : Byte := keyByte s ((r + 512) % 1024)

/-- Round `r` of Encrypt (R180). -/
def encryptRound (s : State) (xs : List Byte) (r : Nat) : List Byte :=
  rotBwd s (phaseB s r) (whitenBytes s (rotFwd s (phaseA s r) (subFwd s (phaseA s r) xs)))

/-- Round `r` of Decrypt (R181). -/
def decryptRound (s : State) (xs : List Byte) (r : Nat) : List Byte :=
  subRev s (phaseA s r) (rotBwd s (phaseA s r) (whitenBytes s (rotFwd s (phaseB s r) xs)))

/-- `Encrypt(L, R)` on the buffer bytes (R180). -/
def encryptBytes (s : State) (R : Nat) (xs : List Byte) : List Byte :=
  (List.range R).foldl (encryptRound s) (whitenBytes s xs)

/-- `Decrypt(L, R)` on the buffer bytes: the rounds in descending order (R181). -/
def decryptBytes (s : State) (R : Nat) (xs : List Byte) : List Byte :=
  whitenBytes s ((List.range R).reverse.foldl (decryptRound s) xs)

/-- INIT R (R184): the checks before any write, then KS and TB, then the exclusive swap of the context.  The
fault is the table builder's logic error, which cannot happen (R125). -/
def execInit (rounds : BitVec 16) (s : State) : Host.Outcome State Fault Refusal :=
  match initError (secretLength s) rounds.toNat with
  | some e => .next (raiseError e s)
  | none =>
    let K := keySchedule (secretBytes s)
    match buildTables K with
    | none => .fault .probeExhausted
    | some t => .next (finish (loadContext K t.fwd t.inv (rounds.setWidth 11) s))

/-- ENCRYPT (R185). -/
def execEncrypt (s : State) : Host.Outcome State Fault Refusal :=
  runOnBuffer (encryptBytes s s.rounds.toNat) s

/-- DECRYPT (R186). -/
def execDecrypt (s : State) : Host.Outcome State Fault Refusal :=
  runOnBuffer (decryptBytes s s.rounds.toNat) s

end Sys2Proof.Machine
end

