-- ==== Sys2Proof/Machine/Dispatch.lean ====
section
/-! DEFINITION. The meaning of a command: one arm per constructor of Instr. -/

namespace Sys2Proof.Machine

def exec (i : Instr) (s : State) : Host.Outcome State Fault Refusal :=
  match i with
  | .init rounds => Sys2Proof.Machine.execInit rounds s
  | .encrypt => Sys2Proof.Machine.execEncrypt s
  | .decrypt => Sys2Proof.Machine.execDecrypt s
  | .whiten => Sys2Proof.Machine.execWhiten s
  | .subf phase => Sys2Proof.Machine.execSubf phase s
  | .subr phase => Sys2Proof.Machine.execSubr phase s
  | .rotf phase => Sys2Proof.Machine.execRotf phase s
  | .rotb phase => Sys2Proof.Machine.execRotb phase s

end Sys2Proof.Machine
end

