-- ==== Sys2Proof/Machine/Port.lean ====
section
/-! DEFINITION. The host port: the address map (R51), the register and memory transactions (R50 to R58, R62), the
command that a CMD write runs (R65, R80, R87), and the reset event (R230, R232). -/

namespace Sys2Proof.Machine

open Sys2Proof.Config

/-- The register at an offset of the register space (R23 to R29). -/
inductive Reg where
  | cmd
  | status
  | secretLen
  | bufLen
  | rounds
  | reserved
deriving DecidableEq, Repr

/-- The region of the address map that an address lies in (R51): the register space, an unmapped range, or index
`i` of the window of a memory. -/
inductive Region where
  | registers
  | unmapped
  | window (b : Bank) (i : Nat)
deriving DecidableEq, Repr

/-- The register at offset `off` (R51): the offsets 0x014 to 0x0FC are reserved (R29). -/
def regOf (off : Addr) : Reg :=
  if off = 0x000 then .cmd
  else if off = 0x004 then .status
  else if off = 0x008 then .secretLen
  else if off = 0x00C then .bufLen
  else if off = 0x010 then .rounds
  else .reserved

/-- The address map (R51). -/
def regionOf (addr : Addr) : Region :=
  let a := addr.toNat
  if a ≤ 0x000FF then .registers
  else if a ≤ 0x003FF then .unmapped
  else if a ≤ 0x007FF then .window .key (a - 0x00400)
  else if a ≤ 0x008FF then .window .secret (a - 0x00800)
  else if a ≤ 0x0FFFF then .unmapped
  else if a ≤ 0x1FFFF then .window .buf (a - 0x10000)
  else if a ≤ 0x2FFFF then .window .fwd (a - 0x20000)
  else .window .inv (a - 0x30000)

/-- What the host reads through a memory window: SECRET and BUF as they are (R55, R56), K, FWD and INV masked to
0x00 while CTX_VALID = 0 (R57, R58). -/
def windowByte (s : State) : Bank → Nat → Byte
  | .secret, i => byteAt s .secret i
  | .buf, i => byteAt s .buf i
  | .key, i => if s.ctxValid then byteAt s .key i else 0
  | .fwd, i => if s.ctxValid then byteAt s .fwd i else 0
  | .inv, i => if s.ctxValid then byteAt s .inv i else 0

/-- What a register reads as (R23, R24, R27, R28, R29). -/
def regValue (s : State) : Reg → Word
  | .cmd => 0
  | .status => statusWord s
  | .secretLen => s.secretLen.setWidth 32
  | .bufLen => s.bufLen.setWidth 32
  | .rounds => s.rounds.setWidth 32
  | .reserved => 0

/-- The command that the word `w` encodes, run to completion (R65, R87); an illegal word raises ILLEGAL_CMD and
changes nothing else (R84, R206). -/
def runCommand (w : Word) (s : State) : Host.Outcome State Fault Refusal :=
  match decode w with
  | .command i => exec i s
  | .illegal _ => .next (raiseError .illegalCmd s)

/-- The effect of writing `v` to a register (R23, R24, R27, R28, R29, R62): a write to CMD runs a command, the
length registers keep the bits of their field as written, every other register ignores the write. -/
def writeReg (r : Reg) (v : Word) (s : State) : Host.Outcome State Fault Refusal :=
  match r with
  | .cmd => runCommand v s
  | .status => .next s
  | .secretLen => .next { s with secretLen := v.setWidth 16 }
  | .bufLen => .next { s with bufLen := v.setWidth 17 }
  | .rounds => .next s
  | .reserved => .next s

/-- Why a register transaction at `off` is refused (R52, R53), if it is. -/
def regRefusal (off : Addr) : Option Refusal :=
  if 0x000FF < off.toNat then some (.registerAccessToMemorySpace off)
  else if off.toNat % 4 ≠ 0 then some (.misalignedRegisterAccess off)
  else none

/-- `RegWrite(off, v)` (R50). -/
def regWrite (off : Addr) (v : Word) (s : State) : Host.Outcome State Fault Refusal :=
  match regRefusal off with
  | some r => .refused r
  | none => writeReg (regOf off) v s

/-- `RegRead(off)` (R50). -/
def regRead (off : Addr) (s : State) : Host.Outcome State Fault Refusal :=
  match regRefusal off with
  | some r => .refused r
  | none => .next (reply (.word (regValue s (regOf off))) s)

/-- `MemWrite(addr, 1, v)` (R50, R54 to R58): a write to a read-only window or to an unmapped address changes no
state. -/
def memWrite (addr : Addr) (v : Byte) (s : State) : Host.Outcome State Fault Refusal :=
  match regionOf addr with
  | .registers => .refused (.byteAccessToRegisterSpace addr)
  | .unmapped => .next s
  | .window .secret i => .next (setSecretByte i v s)
  | .window .buf i => .next (setBufByte i v s)
  | .window .key _ => .next s
  | .window .fwd _ => .next s
  | .window .inv _ => .next s

/-- `MemRead(addr, 1)` (R50, R54 to R58). -/
def memRead (addr : Addr) (s : State) : Host.Outcome State Fault Refusal :=
  match regionOf addr with
  | .registers => .refused (.byteAccessToRegisterSpace addr)
  | .unmapped => .next (reply (.byte 0) s)
  | .window b i => .next (reply (.byte (windowByte s b i)) s)

/-- Perform one event at the engine's boundary, to its end (R50, R61, R65, R230, R232). -/
def perform (e : Event) (s : State) : Host.Outcome State Fault Refusal :=
  match e with
  | .regWrite off v => regWrite off v s
  | .regRead off => regRead off s
  | .memWrite addr v => memWrite addr v s
  | .memRead addr => memRead addr s
  | .reset => .next (takeReset s)
  | .resetDuring _ => .next (takeReset s)

/-- The host issues a CMD write of `w` that is performed next. -/
def issueCommand (w : Word) (s : State) : State := setPort (.regWrite 0x000 w :: s.port) s

end Sys2Proof.Machine
end

