-- ==== Sys2Proof/Machine/Step.lean ====
section
/-! DEFINITION. One step of the machine: the next transaction at the host port, performed to its end. -/

namespace Sys2Proof.Machine

/-- One step: take the oldest transaction that the host has issued and perform it; every other one is held
(R64, R65).  With none issued, the engine is idle and waits (R42, R230). -/
def step (s : State) : Host.Outcome State Fault Refusal :=
  match s.port with
  | [] => .next s
  | e :: rest => perform e (setPort rest s)

/-- The state whose next transaction is the CMD write of an opcode-table word.  The engine fetches nothing
(R22, R67): a command word is the data of one CMD write, so this is where step finds its next command. -/
def State.withFetchWord (s : State) (nbits w : Nat) : State := issueCommand (tableWord nbits w) s

end Sys2Proof.Machine
end

