-- ==== Sys2Proof/Machine/Assembler.lean ====
section
/-! DEFINITION. The host statements of R86 and the transactions they stand for, and the named offsets and bases. -/

namespace Sys2Proof.Machine

/-- Register offsets by name (R86). -/
abbrev offCmd : Addr := 0x000
abbrev offStatus : Addr := 0x004
abbrev offSecretLen : Addr := 0x008
abbrev offBufLen : Addr := 0x00C
abbrev offRounds : Addr := 0x010

/-- Window bases by name (R86). -/
abbrev keyBase : Addr := 0x00400
abbrev secretBase : Addr := 0x00800
abbrev bufBase : Addr := 0x10000
abbrev fwdBase : Addr := 0x20000
abbrev invBase : Addr := 0x30000

/-- A host statement (R86).  The eight command mnemonics are the constructor `command`. -/
inductive HostStatement where
  | wr32 (off : Addr) (v : Word)
  | rd32 (off : Addr)
  | wr8 (addr : Addr) (v : Byte)
  | rd8 (addr : Addr)
  | wrbytes (addr : Addr) (bs : List Byte)
  | rdbytes (addr : Addr) (n : Nat)
  | command (i : Instr)
deriving DecidableEq, Repr

/-- `wr8 ADDR, B0`, `wr8 ADDR+1, B1`, … in that order (R86).  DESIGN CHOICE (log entry 16), safe: the spec does not say
what `ADDR+n` beyond 0x3FFFF stands for; here the 18-bit address wraps to 0x00000, where the transaction is
refused as a byte access to the register space (R52). -/
def writeBytes : Addr → List Byte → List Event
  | _, [] => []
  | addr, v :: bs => .memWrite addr v :: writeBytes (addr + 1) bs

/-- `rd8 ADDR`, …, `rd8 ADDR+N-1` in that order (R86).  DESIGN CHOICE (log entry 16), safe: beyond 0x3FFFF the address
wraps to 0x00000, as in `writeBytes`. -/
def readBytes : Addr → Nat → List Event
  | _, 0 => []
  | addr, n + 1 => .memRead addr :: readBytes (addr + 1) n

/-- The transactions of a statement (R86). -/
def HostStatement.expand : HostStatement → List Event
  | .wr32 off v => [.regWrite off v]
  | .rd32 off => [.regRead off]
  | .wr8 addr v => [.memWrite addr v]
  | .rd8 addr => [.memRead addr]
  | .wrbytes addr bs => writeBytes addr bs
  | .rdbytes addr n => readBytes addr n
  | .command i => [.regWrite offCmd (encode i)]

/-- The transactions of a host program: those of its statements, in order (R64, R86). -/
def assemble (p : List HostStatement) : List Event := p.flatMap HostStatement.expand

end Sys2Proof.Machine
end

