-- ==== Sys2Proof/WellFormed.lean ====
section
/-! DEFINITION. Well-formedness: which commands and which host transactions the spec gives a form. -/

namespace Sys2Proof

/-- Every command is well formed: a phase is a byte and "every byte value is a legal phase", and RNDS can encode
every 16-bit round count (R81, R82).  The bounds are in the types of the operands; a round count above 1024
is a legal word that INIT answers with ROUNDS_RANGE (R207). -/
def Instr.wf : Instr → Bool
  | .init _ => true
  | .encrypt => true
  | .decrypt => true
  | .whiten => true
  | .subf _ => true
  | .subr _ => true
  | .rotf _ => true
  | .rotb _ => true

namespace Machine

/-- The operands of a register transaction: a multiple of 4 in 0x00000..0x000FF (R50). -/
def regOffsetOk (off : Addr) : Bool := decide (off.toNat ≤ 0xFF) && decide (off.toNat % 4 = 0)

/-- The operand of a memory transaction: an address outside 0x00000..0x000FF (R50). -/
def memAddrOk (addr : Addr) : Bool := decide (0xFF < addr.toNat)

/-- A host transaction has the form of R50.  One that has not is refused (R52, R53). -/
def Event.wf : Event → Bool
  | .regWrite off _ => regOffsetOk off
  | .regRead off => regOffsetOk off
  | .memWrite addr _ => memAddrOk addr
  | .memRead addr => memAddrOk addr
  | .reset => true
  | .resetDuring _ => true

end Machine

end Sys2Proof
end

