-- ==== Sys2Proof/Safety.lean ====
section
/-! DEFINITION. What claims about the machine are stated in: the invariant of its states (R29, R35), sequences of
commands, and safe steps. -/

namespace Sys2Proof.Machine

open Sys2Proof.Config

/-- The size of a memory in bytes (R30 to R33). -/
def bankSize : Bank → Nat
  | .secret => secretMax
  | .buf => bufMax
  | .key => keyBytes
  | .fwd => tables * tableEntries
  | .inv => tables * tableEntries

/-- Every memory has its canonical form and lists only indexes that it has. -/
def MemoriesOk (s : State) : Prop :=
  ∀ b, (bankOf s b).wf ∧ ∀ c ∈ bankOf s b, c.1 < bankSize b

/-- ROUNDS.R is in 0..1024 (R29). -/
def RoundsOk (s : State) : Prop := s.rounds.toNat ≤ roundsMax

/-- Every inverse table is the two-sided inverse of its forward table, so every forward table is a bijection on
0..255 (R35). -/
def TablesOk (s : State) : Prop :=
  ∀ p m : Byte,
    invByte s p.toNat (fwdByte s p.toNat m.toNat).toNat = m ∧
    fwdByte s p.toNat (invByte s p.toNat m.toNat).toNat = m

/-- K and the tables are the ones that INIT computes from the secret `S` (R35). -/
def ContextOf (S : List Byte) (s : State) : Prop :=
  ∃ t, buildTables (keySchedule S) = some t ∧
    s.key = Memory.ofBytes (keySchedule S) ∧ s.fwd = Memory.ofBytes t.fwd ∧ s.inv = Memory.ofBytes t.inv

/-- While CTX_VALID = 1, the context is the one of some secret that INIT accepts, and its tables are mutually
inverse bijections (R35). -/
def ContextOk (s : State) : Prop :=
  s.ctxValid = true →
    TablesOk s ∧ ∃ S : List Byte, 1 ≤ S.length ∧ S.length ≤ secretMax ∧ ContextOf S s

/-- The invariant of the machine. -/
structure StateInv (s : State) : Prop where
  memories : MemoriesOk s
  rounds : RoundsOk s
  context : ContextOk s

/-- A step is safe when it does not end in a fault.  (A refusal is no fault: it says that the spec gives the
transaction no meaning, R52.) -/
def SafeStep (s : State) : Prop := ∀ f, step s ≠ .fault f

/-- The commands `is`, one after another, as the data of CMD writes would run them; it stops at the first fault or
refusal. -/
def execAll : List Instr → State → Host.Outcome State Fault Refusal
  | [], s => .next s
  | i :: is, s =>
    match exec i s with
    | .next t => execAll is t
    | .fault f => .fault f
    | .refused r => .refused r

/-- The primitive commands of round `r` of Encrypt (R180). -/
def encryptRoundCommands (s : State) (r : Nat) : List Instr :=
  [.subf (phaseA s r), .rotf (phaseA s r), .whiten, .rotb (phaseB s r)]

/-- The primitive commands of round `r` of Decrypt (R181). -/
def decryptRoundCommands (s : State) (r : Nat) : List Instr :=
  [.rotf (phaseB s r), .whiten, .rotb (phaseA s r), .subr (phaseA s r)]

/-- What the host can see of two states is the same in all but the buffer: the registers, the context and the
secret, byte by byte. -/
def SameButBuffer (s t : State) : Prop :=
  t.params = s.params ∧ t.ctxValid = s.ctxValid ∧ t.secretLen = s.secretLen ∧ t.bufLen = s.bufLen ∧
  t.rounds = s.rounds ∧ t.secret = s.secret ∧ t.key = s.key ∧ t.fwd = s.fwd ∧ t.inv = s.inv ∧
  t.port = s.port ∧ t.replies = s.replies ∧ t.epoch = s.epoch

/-- The state after a command over the buffer that raised no error: STATUS.ERR is 0, the buffer's memory and the
sequencer registers may have changed, everything else is as before. -/
def BufferCommandFrame (s t : State) : Prop :=
  t.err = .ok ∧ SameButBuffer s t ∧
  ∀ i, bufLength s ≤ i → byteAt t .buf i = byteAt s .buf i

end Sys2Proof.Machine
end

