-- ==== Sys2Proof/Certificates/Slice0/Obligations.lean ====
section
/-! DEFINITION. The statements for the provers, in the order of OBLIGATIONS.json. -/

open Sys2Proof Sys2Proof.Machine Sys2Proof.Config

/-! ### Command words -/

/-- R83, R87 and the words of R86: a word decodes to a command exactly when it is the word of that command. -/
def Obligations.DecodeEncodeAgree : Prop :=
  ∀ (w : Word) (i : Instr), decode w = .command i ↔ w = encode i

/-- R83: at most one row of the opcode map selects a word; the row of the decoded command selects it; and a word
is illegal exactly when no row selects it (R87). -/
def Obligations.DecodeFollowsOpcodeMap : Prop :=
  ∀ w : Word,
    (∀ r ∈ opcodeMap, ∀ r' ∈ opcodeMap, r.selects w = true → r'.selects w = true → r = r') ∧
    (∀ i, decode w = .command i → ∃ r ∈ opcodeMap, r.mnemonic = mnemonicOf i ∧ r.selects w = true) ∧
    ((∃ why, decode w = .illegal why) ↔ ∀ r ∈ opcodeMap, r.selects w = false)

/-- R81, R82: the phase of a format P command is `w[15:8]`, the round count of INIT is `w[31:16]`, both unsigned. -/
def Obligations.OperandFieldsOfWord : Prop :=
  ∀ w : Word,
    (∀ p, decode w = .command (.subf p) ∨ decode w = .command (.subr p) ∨
        decode w = .command (.rotf p) ∨ decode w = .command (.rotb p) →
      p.toNat = w.toNat / 2 ^ 8 % 2 ^ 8) ∧
    (∀ R, decode w = .command (.init R) → R.toNat = w.toNat / 2 ^ 16)

/-- Words written out from R83 and R86 decode to their commands. -/
def Obligations.SampleWordsDecode : Prop :=
  decode 0x00020001 = .command (.init 2) ∧ decode 0x04010001 = .command (.init 1025) ∧
  decode 0x00000002 = .command .encrypt ∧ decode 0x00000003 = .command .decrypt ∧
  decode 0x00000010 = .command .whiten ∧ decode 0x00004111 = .command (.subf 0x41) ∧
  decode 0x00000012 = .command (.subr 0x00) ∧ decode 0x0000C413 = .command (.rotf 0xC4) ∧
  decode 0x0000AD14 = .command (.rotb 0xAD)

/-- R84, R206: OP reserved, or a must-be-zero field nonzero: the CMD write raises ILLEGAL_CMD and changes nothing
else; every other word is a command's. -/
def Obligations.IllegalWordRaisesIllegalCmd : Prop :=
  ∀ w : Word,
    let op := w.toNat % 2 ^ 8
    let phase := w.toNat / 2 ^ 8 % 2 ^ 8
    let rnds := w.toNat / 2 ^ 16
    let illegal :=
      op ∉ [0x01, 0x02, 0x03, 0x10, 0x11, 0x12, 0x13, 0x14] ∨
      (op ∈ [0x01, 0x02, 0x03, 0x10] ∧ phase ≠ 0) ∨
      (op ∈ [0x02, 0x03, 0x10, 0x11, 0x12, 0x13, 0x14] ∧ rnds ≠ 0)
    (illegal → ∀ (s : State) (rest : List Event), s.port = .regWrite 0x000 w :: rest →
      step s = .next { s with port := rest, err := .illegalCmd }) ∧
    (¬ illegal → ∃ i, decode w = .command i)

/-! ### Steps -/

/-- R65, R80, R87: a step whose transaction is a CMD write of a command's word runs that command, with the
transaction taken from the port. -/
def Obligations.StepRunsDecodedCommand : Prop :=
  ∀ (s : State) (w : Word) (i : Instr) (rest : List Event),
    s.port = .regWrite 0x000 w :: rest → decode w = .command i →
    step s = exec i { s with port := rest }

/-- R64, R65, R232: a step takes the oldest transaction and holds the others in their order, returns at most one
value, and never changes the open parameters (R20).  That a step without a transaction changes nothing is
the model's choice (log entry 2). -/
def Obligations.StepPerformsOldestTransaction : Prop :=
  (∀ s : State, s.port = [] → step s = .next s) ∧
  (∀ (s t : State) (e : Event) (rest : List Event), s.port = e :: rest → step s = .next t →
    t.port = rest ∧ t.params = s.params ∧
    (t.replies = s.replies ∨
      ∃ r, t.replies = s.replies ++ [r] ∧ ((∃ off, e = .regRead off) ∨ ∃ addr, e = .memRead addr)))

/-- R86: the words the command statements stand for, and a step that performs such a statement runs its command. -/
def Obligations.AssembledCommandRuns : Prop :=
  (∀ R, (encode (.init R)).toNat = R.toNat * 2 ^ 16 + 0x01) ∧
  (encode .encrypt).toNat = 0x02 ∧ (encode .decrypt).toNat = 0x03 ∧ (encode .whiten).toNat = 0x10 ∧
  (∀ p, (encode (.subf p)).toNat = p.toNat * 2 ^ 8 + 0x11 ∧ (encode (.subr p)).toNat = p.toNat * 2 ^ 8 + 0x12 ∧
    (encode (.rotf p)).toNat = p.toNat * 2 ^ 8 + 0x13 ∧ (encode (.rotb p)).toNat = p.toNat * 2 ^ 8 + 0x14) ∧
  (∀ (i : Instr) (s : State) (rest : List Event), s.port = (HostStatement.command i).expand ++ rest →
    step s = exec i { s with port := rest })

/-! ### Key schedule, table builder, INIT -/

/-- R102, R103 (with the cursor of R105): every byte of the key schedule, in exact integer arithmetic reduced
mod 256. -/
def Obligations.KeyScheduleRecurrence : Prop :=
  ∀ S : List Byte, 1 ≤ S.length →
    let K := keySchedule S
    let sec : Nat → Int := fun i => ((S.getD i 0).toNat : Int)
    K.length = 1024 ∧
    ∀ n, n < 1024 →
      let cur := sec (n % S.length)
      let last := if n = 0 then sec (S.length - 1) else sec ((n - 1) % S.length)
      let acc := if n = 0 then (sec (S.length - 1) - sec 0) % 256 else ((K.getD (n - 1) 0).toNat : Int)
      let mix := if n % 2 = 1 then (acc + cur + 1) % 256 else (acc - cur - 127) % 256
      (K.getD n 0).toNat = (((n / 256 + n % 256) ^^^ last.toNat) ^^^ mix.toNat) % 256

/-- R121 to R125: the accumulator of every slot, in the order of the slots with the cursor of R124, and each entry
as the first unused position from it on, found within `m` probe steps; the inverse entry is the slot. -/
def Obligations.TableBuilderRecurrence : Prop :=
  ∀ K : List Byte, K.length = 1024 →
    ∃ (t : Tables) (mixed : Nat → Byte), buildTables K = some t ∧
      t.fwd.length = 65536 ∧ t.inv.length = 65536 ∧
      (∀ q, q < 65536 →
        let p := q / 256
        let acc := if q = 0 then K.getD 1023 0 + K.getD 0 0 - 127 else mixed (q - 1)
        let cur := K.getD (q % 1024) 0
        mixed q = BitVec.ofNat 8 p ^^^ (if p % 2 = 1 then acc + cur + 1 else acc - cur - 127)) ∧
      (∀ p m, p < 256 → m < 256 →
        ∃ d, d ≤ m ∧
          t.fwd.getD (256 * p + m) 0 = mixed (256 * p + m) + BitVec.ofNat 8 d ∧
          (∀ e, e < d → ∃ j, j < m ∧ t.fwd.getD (256 * p + j) 0 = mixed (256 * p + m) + BitVec.ofNat 8 e) ∧
          (∀ j, j < m → t.fwd.getD (256 * p + j) 0 ≠ t.fwd.getD (256 * p + m) 0) ∧
          (t.inv.getD (256 * p + (t.fwd.getD (256 * p + m) 0).toNat) 0).toNat = m)

/-- R126 (and R125, R211: the builder always has a result): each forward table is a permutation of 0..255, and each
inverse table its two-sided inverse, whatever the key material. -/
def Obligations.TablesArePermutations : Prop :=
  ∀ K : List Byte, ∃ t, buildTables K = some t ∧
    ∀ p, p < 256 →
      (∀ m m' : Byte, t.fwd.getD (256 * p + m.toNat) 0 = t.fwd.getD (256 * p + m'.toNat) 0 → m = m') ∧
      (∀ v : Byte, ∃ m : Byte, t.fwd.getD (256 * p + m.toNat) 0 = v) ∧
      (∀ m : Byte, t.inv.getD (256 * p + (t.fwd.getD (256 * p + m.toNat) 0).toNat) 0 = m) ∧
      (∀ v : Byte, t.fwd.getD (256 * p + (t.inv.getD (256 * p + v.toNat) 0).toNat) 0 = v)

/-- R184 (with R201's order of checks met): INIT of a legal secret and round count completes, replaces the whole
context by the one of the secret, and changes nothing else but ERR and the unspecified sequencer registers. -/
def Obligations.InitBuildsContext : Prop :=
  ∀ (s : State) (R : BitVec 16), 1 ≤ secretLength s → secretLength s ≤ 256 → R.toNat ≤ 1024 →
    ∃ t u, buildTables (keySchedule (secretBytes s)) = some t ∧
      exec (.init R) s = .next u ∧
      u = { s with
            key := u.key, fwd := u.fwd, inv := u.inv, rounds := u.rounds, ctxValid := true, err := .ok
            seq := u.seq, draws := u.draws } ∧
      u.rounds.toNat = R.toNat ∧
      (∀ i, i < 1024 → keyByte u i = (keySchedule (secretBytes s)).getD i 0) ∧
      (∀ p m, p < 256 → m < 256 →
        fwdByte u p m = t.fwd.getD (256 * p + m) 0 ∧ invByte u p m = t.inv.getD (256 * p + m) 0)

/-- R105, R184: INIT's context depends only on ℓ, on the bytes `SECRET[0 .. ℓ-1]` and on the round count. -/
def Obligations.InitReadsOnlyTheSecret : Prop :=
  ∀ (s s' : State) (R : BitVec 16),
    s'.secretLen = s.secretLen → (∀ i, i < secretLength s → byteAt s' .secret i = byteAt s .secret i) →
    ∃ t t', exec (.init R) s = .next t ∧ exec (.init R) s' = .next t' ∧ t'.err = t.err ∧
      (t.err = .ok → t'.key = t.key ∧ t'.fwd = t.fwd ∧ t'.inv = t.inv ∧ t'.rounds = t.rounds ∧
        t'.ctxValid = t.ctxValid)

/-! ### Errors -/

/-- R201, R203 to R205, R207, R208: which error each command reports, first in the order of R203, with nothing but
ERR changed. -/
def Obligations.ErrorPriority : Prop :=
  ∀ s : State,
    (∀ (w : Word) (rest : List Event), s.port = .regWrite 0x000 w :: rest → (∀ i, decode w ≠ .command i) →
      step s = .next { s with port := rest, err := .illegalCmd }) ∧
    (∀ R : BitVec 16,
      (secretLength s = 0 → exec (.init R) s = .next { s with err := .emptySecret }) ∧
      (256 < secretLength s → exec (.init R) s = .next { s with err := .lenRange }) ∧
      (1 ≤ secretLength s → secretLength s ≤ 256 → 1024 < R.toNat →
        exec (.init R) s = .next { s with err := .roundsRange })) ∧
    (∀ i : Instr, (∀ R, i ≠ .init R) →
      (s.ctxValid = false → exec i s = .next { s with err := .notInitialized }) ∧
      (s.ctxValid = true → 65536 < bufLength s → exec i s = .next { s with err := .lenRange }))

/-- R201: a command that ends with an error has changed nothing but STATUS.ERR, also as a CMD write at the port,
where the word may be illegal. -/
def Obligations.FailedCommandChangesOnlyErr : Prop :=
  (∀ (i : Instr) (s t : State), exec i s = .next t → t.err ≠ .ok → t = { s with err := t.err }) ∧
  (∀ (w : Word) (rest : List Event) (s t : State), s.port = .regWrite 0x000 w :: rest → step s = .next t →
    t.err ≠ .ok → t = { s with port := rest, err := t.err })

/-! ### Whitening and substitution -/

/-- R140, R142: WHITEN with a context and a legal length. -/
def Obligations.WhitenResult : Prop :=
  ∀ s : State, s.ctxValid = true → bufLength s ≤ 65536 →
    ∃ t, exec .whiten s = .next t ∧ BufferCommandFrame s t ∧
      ∀ i, i < bufLength s → byteAt t .buf i = byteAt s .buf i ^^^ keyByte s (i % 1024) ^^^ 0xFF

/-- R141: WHITEN applied twice restores every byte of the buffer. -/
def Obligations.WhitenTwiceRestores : Prop :=
  ∀ s : State, s.ctxValid = true → bufLength s ≤ 65536 →
    ∃ t u, exec .whiten s = .next t ∧ exec .whiten t = .next u ∧ ∀ i, byteAt u .buf i = byteAt s .buf i

/-- R150 to R153: SUBF and SUBR with a context and a legal length. -/
def Obligations.SubstitutionResult : Prop :=
  ∀ (s : State) (p : Byte), s.ctxValid = true → bufLength s ≤ 65536 →
    (∃ t, exec (.subf p) s = .next t ∧ BufferCommandFrame s t ∧
      ∀ i, i < bufLength s → byteAt t .buf i = fwdByte s p.toNat (byteAt s .buf i).toNat) ∧
    (∃ t, exec (.subr p) s = .next t ∧ BufferCommandFrame s t ∧
      ∀ i, i < bufLength s → byteAt t .buf i = invByte s p.toNat (byteAt s .buf i).toNat)

/-- R154: SUBR undoes SUBF and SUBF undoes SUBR, over any buffer, by the invariants of R35. -/
def Obligations.SubstitutionInverse : Prop :=
  ∀ (s : State) (p : Byte), s.ctxValid = true → bufLength s ≤ 65536 → TablesOk s →
    (∃ t u, exec (.subf p) s = .next t ∧ exec (.subr p) t = .next u ∧ ∀ i, byteAt u .buf i = byteAt s .buf i) ∧
    (∃ t u, exec (.subr p) s = .next t ∧ exec (.subf p) t = .next u ∧ ∀ i, byteAt u .buf i = byteAt s .buf i)

/-! ### Rotation -/

/-- R161: the two rotations in integer arithmetic, the amount 0 as the identity, and each the inverse of the
other. -/
def Obligations.RotationArithmetic : Prop :=
  ∀ (w : Window) (k : Nat), k ≤ 63 →
    (rol64 w k).toNat =
      (if k = 0 then w.toNat else ((w.toNat * 2 ^ k) ||| (w.toNat / 2 ^ (64 - k))) % 2 ^ 64) ∧
    (ror64 w k).toNat =
      (if k = 0 then w.toNat else ((w.toNat / 2 ^ k) ||| (w.toNat * 2 ^ (64 - k))) % 2 ^ 64) ∧
    ror64 (rol64 w k) k = w ∧ rol64 (ror64 w k) k = w

/-- R160: the word of a window and the bytes a word writes, under both byte orders, of which LE is the default; no
other byte is touched. -/
def Obligations.WindowByteOrder : Prop :=
  Params.default.byteOrder = .le ∧
  ∀ (xs : List Byte) (off : Nat), off + 8 ≤ xs.length →
    (readWindow .le xs off).toNat = ((List.range 8).map (fun j => (xs.getD (off + j) 0).toNat * 2 ^ (8 * j))).sum ∧
    (readWindow .be xs off).toNat =
      ((List.range 8).map (fun j => (xs.getD (off + j) 0).toNat * 2 ^ (8 * (7 - j)))).sum ∧
    ∀ w : Window,
      (∀ j, j < 8 →
        ((writeWindow .le xs off w).getD (off + j) 0).toNat = w.toNat / 2 ^ (8 * j) % 2 ^ 8 ∧
        ((writeWindow .be xs off w).getD (off + j) 0).toNat = w.toNat / 2 ^ (8 * (7 - j)) % 2 ^ 8) ∧
      (∀ (o : ByteOrder), (writeWindow o xs off w).length = xs.length ∧
        ∀ i, i < off ∨ off + 8 ≤ i → (writeWindow o xs off w).getD i 0 = xs.getD i 0)

/-- R162: the rotation amount of a table index, for either value of ROT_AMOUNT_INDEX, of which TABLE_WRAP is the
default; it lies in 0..63. -/
def Obligations.RotationAmounts : Prop :=
  Params.default.rotIndex = .tableWrap ∧
  ∀ (s : State) (p : Byte) (j : Nat),
    rotAmount s p.toNat j < 64 ∧
    (j < 256 → rotAmount s p.toNat j = (fwdByte s p.toNat j).toNat % 64) ∧
    (256 ≤ j → s.params.rotIndex = .tableWrap →
      rotAmount s p.toNat j = (fwdByte s p.toNat (j % 256)).toNat % 64) ∧
    (256 ≤ j → s.params.rotIndex = .flatForward →
      let t := (256 * p.toNat + j) % 65536
      rotAmount s p.toNat j = (fwdByte s (t / 256) (t % 256)).toNat % 64)

/-- R163: the operation list, with the interior offsets as those below `max` that are `start`, `start + 8`, …. -/
def Obligations.OperationList : Prop :=
  ∀ (s : State) (p : Byte) (L : Nat),
    let start := (fwdByte s p.toNat 127).toNat % 8
    (L < 8 → opList s p.toNat L = []) ∧
    (L = 8 → opList s p.toNat L = [(0, rotAmount s p.toNat 0)]) ∧
    (9 ≤ L → opList s p.toNat L =
      (0, rotAmount s p.toNat 0) :: (L - 9, rotAmount s p.toNat 1) ::
        ((List.range (L - 8)).filter (fun sc => decide (start ≤ sc) && decide ((sc - start) % 8 = 0))).map
          (fun sc => (sc, rotAmount s p.toNat (sc / 16))))

/-- R164, R167: ROTF with a context and a legal length rotates the windows left, first to last, each seeing what
the ones before it wrote. -/
def Obligations.RotationForwardResult : Prop :=
  ∀ (s : State) (p : Byte), s.ctxValid = true → bufLength s ≤ 65536 →
    ∃ t, exec (.rotf p) s = .next t ∧ BufferCommandFrame s t ∧
      bufBytes t = (opList s p.toNat (bufLength s)).foldl
        (fun xs op => writeWindow s.params.byteOrder xs op.1
          (rol64 (readWindow s.params.byteOrder xs op.1) op.2)) (bufBytes s)

/-- R165: ROTB with a context and a legal length rotates the windows right, last to first (the mirror order of
conflict C1). -/
def Obligations.RotationBackwardResult : Prop :=
  ∀ (s : State) (p : Byte), s.ctxValid = true → bufLength s ≤ 65536 →
    ∃ t, exec (.rotb p) s = .next t ∧ BufferCommandFrame s t ∧
      bufBytes t = (opList s p.toNat (bufLength s)).reverse.foldl
        (fun xs op => writeWindow s.params.byteOrder xs op.1
          (ror64 (readWindow s.params.byteOrder xs op.1) op.2)) (bufBytes s)

/-- R168: ROTB restores what ROTF changed, and the other way round, for every phase, length and value of the two
parameters. -/
def Obligations.RotationsUndoEachOther : Prop :=
  ∀ (s : State) (p : Byte), s.ctxValid = true → bufLength s ≤ 65536 →
    (∃ t u, exec (.rotf p) s = .next t ∧ exec (.rotb p) t = .next u ∧ ∀ i, byteAt u .buf i = byteAt s .buf i) ∧
    (∃ t u, exec (.rotb p) s = .next t ∧ exec (.rotf p) t = .next u ∧ ∀ i, byteAt u .buf i = byteAt s .buf i)

/-- R166: every window lies inside the buffer, and for `L >= 9` none touches the last byte, so ROTF and ROTB leave
it as it was; at `L = 8` there is one window, at 0. -/
def Obligations.WindowsStayInsideBuffer : Prop :=
  ∀ (s : State) (p : Byte),
    (∀ L, 8 ≤ L → ∀ op ∈ opList s p.toNat L, op.1 ≤ L - 8 ∧ (9 ≤ L → op.1 ≤ L - 9)) ∧
    (∀ op ∈ opList s p.toNat 8, op.1 = 0) ∧
    (9 ≤ bufLength s → ∀ t, exec (.rotf p) s = .next t ∨ exec (.rotb p) s = .next t →
      byteAt t .buf (bufLength s - 1) = byteAt s .buf (bufLength s - 1))

/-- R171: the interior windows are pairwise disjoint and in ascending order, and window 0 overlaps the first of
them exactly when `max > start`. -/
def Obligations.InteriorWindowsDisjoint : Prop :=
  ∀ start max : Nat, start ≤ 7 →
    (interiorOffsets start max).Pairwise (fun a b => a + 8 ≤ b) ∧
    ((∃ sc ∈ interiorOffsets start max, sc < 8) ↔ start < max) ∧
    (∀ sc ∈ interiorOffsets start max, sc < 8 → sc = start)

/-! ### ENCRYPT and DECRYPT -/

/-- R180, R185: ENCRYPT with a context and a legal length: one whitening, then the rounds in ascending order. -/
def Obligations.EncryptResult : Prop :=
  ∀ s : State, s.ctxValid = true → bufLength s ≤ 65536 →
    ∃ t, exec .encrypt s = .next t ∧ BufferCommandFrame s t ∧
      bufBytes t = (List.range s.rounds.toNat).foldl
        (fun xs r =>
          let pA := keyByte s r
          let pB := keyByte s ((r + 512) % 1024)
          rotBwd s pB (whitenBytes s (rotFwd s pA (subFwd s pA xs))))
        (whitenBytes s (bufBytes s))

/-- R181, R186: DECRYPT with a context and a legal length: the rounds in descending order, then one whitening. -/
def Obligations.DecryptResult : Prop :=
  ∀ s : State, s.ctxValid = true → bufLength s ≤ 65536 →
    ∃ t, exec .decrypt s = .next t ∧ BufferCommandFrame s t ∧
      bufBytes t = whitenBytes s ((List.range s.rounds.toNat).reverse.foldl
        (fun xs r =>
          let pA := keyByte s r
          let pB := keyByte s ((r + 512) % 1024)
          subRev s pA (rotBwd s pA (whitenBytes s (rotFwd s pB xs))))
        (bufBytes s))

/-- R180: ENCRYPT does what its units do as commands of their own: WHITEN, then in each round SUBF, ROTF, WHITEN
and ROTB with the phases of that round. -/
def Obligations.EncryptEqualsItsPrimitives : Prop :=
  ∀ s : State, s.ctxValid = true → bufLength s ≤ 65536 →
    ∃ t u, exec .encrypt s = .next t ∧
      execAll (.whiten :: (List.range s.rounds.toNat).flatMap (encryptRoundCommands s)) s = .next u ∧
      SameButBuffer t u ∧ u.err = t.err ∧ ∀ i, byteAt u .buf i = byteAt t .buf i

/-- R181: DECRYPT does what its units do as commands of their own, the rounds in descending order. -/
def Obligations.DecryptEqualsItsPrimitives : Prop :=
  ∀ s : State, s.ctxValid = true → bufLength s ≤ 65536 →
    ∃ t u, exec .decrypt s = .next t ∧
      execAll ((List.range s.rounds.toNat).reverse.flatMap (decryptRoundCommands s) ++ [.whiten]) s = .next u ∧
      SameButBuffer t u ∧ u.err = t.err ∧ ∀ i, byteAt u .buf i = byteAt t .buf i

/-- R183: DECRYPT after ENCRYPT restores the buffer, for every length, round count, buffer and value of the two
parameters. -/
def Obligations.DecryptUndoesEncrypt : Prop :=
  ∀ s : State, s.ctxValid = true → bufLength s ≤ 65536 → TablesOk s →
    ∃ t u, exec .encrypt s = .next t ∧ exec .decrypt t = .next u ∧ ∀ i, byteAt u .buf i = byteAt s .buf i

/-- R187: no rounds is whitening only, a buffer under 8 bytes has no rotation, and an empty buffer no change. -/
def Obligations.DegenerateLengthsAndRounds : Prop :=
  ∀ s : State,
    (s.rounds = 0 → exec .encrypt s = exec .whiten s ∧ exec .decrypt s = exec .whiten s) ∧
    (s.ctxValid = true → bufLength s < 8 → ∀ p : Byte,
      (∃ t, exec (.rotf p) s = .next t ∧ t.err = .ok ∧ ∀ i, byteAt t .buf i = byteAt s .buf i) ∧
      (∃ t, exec (.rotb p) s = .next t ∧ t.err = .ok ∧ ∀ i, byteAt t .buf i = byteAt s .buf i)) ∧
    (s.ctxValid = true → bufLength s = 0 → ∀ i : Instr, (∀ R, i ≠ .init R) →
      ∃ t, exec i s = .next t ∧ t.err = .ok ∧ ∀ j, byteAt t .buf j = byteAt s .buf j)

/-! ### The host port -/

/-- R23, R24, R27 to R29, R200: what a RegRead of each register returns; it changes nothing else. -/
def Obligations.RegisterReads : Prop :=
  ∀ (s : State) (off : Addr) (rest : List Event), s.port = .regRead off :: rest →
    off.toNat ≤ 0xFF → off.toNat % 4 = 0 →
    ∃ v : Word, step s = .next { s with port := rest, replies := s.replies ++ [.word v] } ∧
      (off = 0x000 → v = 0) ∧
      (off = 0x004 → v.toNat =
        16 * (match s.err with
          | .ok => 0 | .emptySecret => 1 | .notInitialized => 2 | .illegalCmd => 3 | .roundsRange => 4 | .lenRange => 5)
        + (if s.ctxValid then 1 else 0)) ∧
      (off = 0x008 → v.toNat = s.secretLen.toNat) ∧
      (off = 0x00C → v.toNat = s.bufLen.toNat) ∧
      (off = 0x010 → v.toNat = s.rounds.toNat) ∧
      (0x014 ≤ off.toNat → v = 0)

/-- R24, R29: writes to STATUS, ROUNDS and the reserved offsets are ignored. -/
def Obligations.ReadOnlyRegistersIgnoreWrites : Prop :=
  ∀ (s : State) (off : Addr) (v : Word) (rest : List Event), s.port = .regWrite off v :: rest →
    off.toNat ≤ 0xFF → off.toNat % 4 = 0 → (off = 0x004 ∨ 0x010 ≤ off.toNat) →
    step s = .next { s with port := rest }

/-- R27, R28: a write to a length register stores the low 16 or 17 bits as written, and a read returns them. -/
def Obligations.LengthRegistersStoreTheirField : Prop :=
  ∀ (s : State) (v : Word) (rest : List Event),
    (s.port = .regWrite 0x008 v :: rest →
      ∃ t, step s = .next t ∧ t = { s with port := rest, secretLen := t.secretLen } ∧
        secretLength t = v.toNat % 2 ^ 16) ∧
    (s.port = .regWrite 0x00C v :: rest →
      ∃ t, step s = .next t ∧ t = { s with port := rest, bufLen := t.bufLen } ∧
        bufLength t = v.toNat % 2 ^ 17)

/-- R55, R56: the SECRET and BUF windows read and write their byte, and a write changes no other byte. -/
def Obligations.SecretAndBufWindows : Prop :=
  ∀ (s : State) (i : Nat) (v : Byte) (rest : List Event),
    (i < 256 →
      (s.port = .memRead (BitVec.ofNat 18 (0x00800 + i)) :: rest →
        step s = .next { s with port := rest, replies := s.replies ++ [.byte (byteAt s .secret i)] }) ∧
      (s.port = .memWrite (BitVec.ofNat 18 (0x00800 + i)) v :: rest →
        ∃ t, step s = .next t ∧ t = { s with port := rest, secret := t.secret } ∧
          byteAt t .secret i = v ∧ ∀ j, j ≠ i → byteAt t .secret j = byteAt s .secret j)) ∧
    (i < 65536 →
      (s.port = .memRead (BitVec.ofNat 18 (0x10000 + i)) :: rest →
        step s = .next { s with port := rest, replies := s.replies ++ [.byte (byteAt s .buf i)] }) ∧
      (s.port = .memWrite (BitVec.ofNat 18 (0x10000 + i)) v :: rest →
        ∃ t, step s = .next t ∧ t = { s with port := rest, buf := t.buf } ∧
          byteAt t .buf i = v ∧ ∀ j, j ≠ i → byteAt t .buf j = byteAt s .buf j))

/-- R57, R58: the K, FWD and INV windows read 0 without a context and their byte with one, and ignore writes. -/
def Obligations.ContextWindowsMaskedAndReadOnly : Prop :=
  ∀ (s : State) (v : Byte) (rest : List Event),
    (∀ i, i < 1024 →
      (s.port = .memRead (BitVec.ofNat 18 (0x00400 + i)) :: rest →
        step s = .next { s with port := rest, replies := s.replies ++ [.byte (if s.ctxValid then keyByte s i else 0)] }) ∧
      (s.port = .memWrite (BitVec.ofNat 18 (0x00400 + i)) v :: rest → step s = .next { s with port := rest })) ∧
    (∀ p m, p < 256 → m < 256 →
      (s.port = .memRead (BitVec.ofNat 18 (0x20000 + 256 * p + m)) :: rest →
        step s = .next { s with port := rest, replies := s.replies ++ [.byte (if s.ctxValid then fwdByte s p m else 0)] }) ∧
      (s.port = .memRead (BitVec.ofNat 18 (0x30000 + 256 * p + m)) :: rest →
        step s = .next { s with port := rest, replies := s.replies ++ [.byte (if s.ctxValid then invByte s p m else 0)] }) ∧
      (s.port = .memWrite (BitVec.ofNat 18 (0x20000 + 256 * p + m)) v :: rest →
        step s = .next { s with port := rest }) ∧
      (s.port = .memWrite (BitVec.ofNat 18 (0x30000 + 256 * p + m)) v :: rest →
        step s = .next { s with port := rest }))

/-- R54: an unmapped address reads 0x00 and ignores writes. -/
def Obligations.UnmappedReadsZero : Prop :=
  ∀ (s : State) (a : Addr) (v : Byte) (rest : List Event),
    (0x00100 ≤ a.toNat ∧ a.toNat ≤ 0x003FF) ∨ (0x00900 ≤ a.toNat ∧ a.toNat ≤ 0x0FFFF) →
    (s.port = .memRead a :: rest → step s = .next { s with port := rest, replies := s.replies ++ [.byte 0] }) ∧
    (s.port = .memWrite a v :: rest → step s = .next { s with port := rest })

/-- R52, R53: exactly the transactions that miss their region, or a register's alignment, are refused. -/
def Obligations.MisformedTransactionsRefused : Prop :=
  ∀ (s : State) (e : Event) (rest : List Event), s.port = e :: rest →
    ((∃ r, step s = .refused r) ↔
      (∃ off, ((∃ v, e = .regWrite off v) ∨ e = .regRead off) ∧ (0xFF < off.toNat ∨ off.toNat % 4 ≠ 0)) ∨
      (∃ a, ((∃ v, e = .memWrite a v) ∨ e = .memRead a) ∧ a.toNat ≤ 0xFF))

/-- R62: a read changes nothing but the port and what was returned, and the same read right after it returns the
same value. -/
def Obligations.ReadsAreIdempotent : Prop :=
  ∀ (s t : State) (e : Event) (rest : List Event), s.port = e :: e :: rest →
    ((∃ off, e = .regRead off) ∨ ∃ a, e = .memRead a) → step s = .next t →
    ∃ r, t = { s with port := e :: rest, replies := s.replies ++ [r] } ∧
      step t = .next { s with port := rest, replies := s.replies ++ [r, r] }

/-! ### Reset -/

/-- R230 to R232: a reset, between commands or during one, gives the reset values of R42, unspecified memories, and
keeps the transactions that are held.  That unspecified contents are the free bytes of the next epoch is how the
model says "a draw" (log entry 3), and the two events are log entry 5. -/
def Obligations.ResetEvent : Prop :=
  ∀ (s : State) (e : Event) (rest : List Event), s.port = e :: rest →
    (e = .reset ∨ ∃ w, e = .resetDuring w) →
    ∃ t, step s = .next t ∧
      t.ctxValid = false ∧ t.err = .ok ∧ t.secretLen = 0 ∧ t.bufLen = 0 ∧ t.rounds = 0 ∧
      (∀ b, bankOf t b = []) ∧ (∀ b i, byteAt t b i = freeByte (s.epoch + 1) b i) ∧
      t.port = rest ∧ t.replies = s.replies ∧ t.params = s.params

/-- R42: the values right after reset; every command but INIT reports NOT_INITIALIZED, and INIT reports
EMPTY_SECRET.  That State.reset carries the open parameters, at the defaults of R7, is the model's choice (log
entry 1). -/
def Obligations.ResetStateValues : Prop :=
  State.reset.ctxValid = false ∧ State.reset.err = .ok ∧ State.reset.secretLen = 0 ∧
  State.reset.bufLen = 0 ∧ State.reset.rounds = 0 ∧ (∀ b, bankOf State.reset b = []) ∧
  statusWord State.reset = 0 ∧ State.reset.params = { byteOrder := .le, rotIndex := .tableWrap } ∧
  (∀ R, exec (.init R) State.reset = .next { State.reset with err := .emptySecret }) ∧
  (∀ i, (∀ R, i ≠ .init R) → exec i State.reset = .next { State.reset with err := .notInitialized })

/-! ### Rules about the whole machine -/

/-- R25: only a successful INIT sets CTX_VALID, only reset clears it, and each of the two does. -/
def Obligations.OnlyInitSetsCtxValid : Prop :=
  ∀ (s t : State), step s = .next t →
    (∀ rest, (s.port = .reset :: rest ∨ ∃ w, s.port = .resetDuring w :: rest) → t.ctxValid = false) ∧
    (t.ctxValid = true → s.ctxValid = true ∨
      ∃ w R rest, s.port = .regWrite 0x000 w :: rest ∧ decode w = .command (.init R) ∧ t.err = .ok) ∧
    (∀ w R rest, s.port = .regWrite 0x000 w :: rest → decode w = .command (.init R) → t.err = .ok →
      t.ctxValid = true) ∧
    (s.ctxValid = true → t.ctxValid = false →
      ∃ rest, s.port = .reset :: rest ∨ ∃ w, s.port = .resetDuring w :: rest)

/-- R26, R202: every command writes ERR with how it ended, reset sets it to 0, and nothing else writes it. -/
def Obligations.ErrReportsLastCommand : Prop :=
  ∀ (s t : State) (e : Event) (rest : List Event), s.port = e :: rest → step s = .next t →
    (∀ w, e = .regWrite 0x000 w →
      t.err = match decode w with
        | .illegal _ => .illegalCmd
        | .command (.init R) =>
          if secretLength s = 0 then .emptySecret else if 256 < secretLength s then .lenRange
          else if 1024 < R.toNat then .roundsRange else .ok
        | .command _ =>
          if s.ctxValid = false then .notInitialized else if 65536 < bufLength s then .lenRange else .ok) ∧
    (e = .reset ∨ (∃ w, e = .resetDuring w) → t.err = .ok) ∧
    ((∀ w, e ≠ .regWrite 0x000 w) → e ≠ .reset → (∀ w, e ≠ .resetDuring w) → t.err = s.err)

/-- R34, R29: nothing but a successful INIT and reset changes any part of the context. -/
def Obligations.ContextFixedBetweenInits : Prop :=
  ∀ (s t : State), step s = .next t →
    (∀ w R rest, s.port = .regWrite 0x000 w :: rest → decode w = .command (.init R) → t.err ≠ .ok) →
    (∀ rest, s.port ≠ .reset :: rest) → (∀ w rest, s.port ≠ .resetDuring w :: rest) →
    t.key = s.key ∧ t.fwd = s.fwd ∧ t.inv = s.inv ∧ t.rounds = s.rounds ∧ t.ctxValid = s.ctxValid

/-- R27, R28, R30, R31, R63: no command writes SECRET, SECRET_LEN or BUF_LEN, none changes `BUF[L ..]`, and INIT
changes no byte of BUF. -/
def Obligations.CommandFrame : Prop :=
  ∀ (i : Instr) (s t : State), exec i s = .next t →
    t.secret = s.secret ∧ t.secretLen = s.secretLen ∧ t.bufLen = s.bufLen ∧ t.params = s.params ∧
    t.port = s.port ∧ t.replies = s.replies ∧ t.epoch = s.epoch ∧
    (∀ j, bufLength s ≤ j → byteAt t .buf j = byteAt s .buf j) ∧
    (∀ R, i = .init R → t.buf = s.buf)

/-- R31, R63: what a command over the buffer leaves in `BUF[0 .. L-1]` and in ERR depends only on those bytes, the
lengths, the context and the parameters: never on `BUF[L ..]`, SECRET or the sequencer registers. -/
def Obligations.BufferCommandsReadOnlyTheirOperands : Prop :=
  ∀ (i : Instr) (s s' t : State), (∀ R, i ≠ .init R) → RoundsOk s →
    s'.params = s.params → s'.ctxValid = s.ctxValid → s'.bufLen = s.bufLen → s'.rounds = s.rounds →
    (∀ j, j < bufLength s → byteAt s' .buf j = byteAt s .buf j) →
    (∀ j, j < 1024 → byteAt s' .key j = byteAt s .key j) →
    (∀ j, j < 65536 → byteAt s' .fwd j = byteAt s .fwd j) →
    (∀ j, j < 65536 → byteAt s' .inv j = byteAt s .inv j) →
    exec i s = .next t →
    ∃ t', exec i s' = .next t' ∧ t'.err = t.err ∧ ∀ j, j < bufLength s → byteAt t' .buf j = byteAt t .buf j

/-- Section 5 of 10_state.md (R36 to R39): the sequencer registers are never observed: a step from a state that
differs only in them ends the same way, in a state that differs only in them.  That they take a free value after
each command is the model's choice (log entry 4). -/
def Obligations.SequencersNeverObserved : Prop :=
  ∀ (s : State) (q : Sequencers) (d : Nat),
    (∀ t, step s = .next t → ∃ u, step { s with seq := q, draws := d } = .next u ∧
      { u with seq := t.seq, draws := t.draws } = t) ∧
    (∀ r, step s = .refused r → step { s with seq := q, draws := d } = .refused r)

/-- R29, R33, R35: every step keeps the invariant: memories in canonical form within their sizes, ROUNDS in 0..1024,
and with CTX_VALID = 1 the context of a legal secret, its tables mutually inverse. -/
def Obligations.StepKeepsInvariant : Prop :=
  ∀ s t : State, StateInv s → step s = .next t → StateInv t

/-- The reset state has the invariant. -/
def Obligations.ResetHasInvariant : Prop := StateInv State.reset

/-- R125, R211: no step ends in a fault: the table builder's probe always finds a free position. -/
def Obligations.NoStepFaults : Prop := ∀ s : State, SafeStep s

/-- R238: every command ends, in every state: with its effect or with an error, never in a fault or a refusal; and a
rotation pass has at most `2 + ceil((L - 8) / 8)` windows. -/
def Obligations.EveryCommandEnds : Prop :=
  (∀ (i : Instr) (s : State), ∃ t, exec i s = .next t) ∧
  (∀ (s : State) (p : Byte) (L : Nat), (opList s p.toNat L).length ≤ if L < 8 then 0 else 2 + (L - 8 + 7) / 8)
end

