-- ==== Sys2Proof/Laws/State.lean ====
section
/-! SUPPORT. For each update of the state and each field of the state: what the field is after the update. -/

namespace Sys2Proof.Machine

open Sys2Proof.Config

@[simp] theorem setSecretByte_params (i : Nat) (v : Byte) (s : State) : (setSecretByte i v s).params = s.params := rfl
@[simp] theorem setSecretByte_ctxValid (i : Nat) (v : Byte) (s : State) : (setSecretByte i v s).ctxValid = s.ctxValid := rfl
@[simp] theorem setSecretByte_err (i : Nat) (v : Byte) (s : State) : (setSecretByte i v s).err = s.err := rfl
@[simp] theorem setSecretByte_secretLen (i : Nat) (v : Byte) (s : State) : (setSecretByte i v s).secretLen = s.secretLen := rfl
@[simp] theorem setSecretByte_bufLen (i : Nat) (v : Byte) (s : State) : (setSecretByte i v s).bufLen = s.bufLen := rfl
@[simp] theorem setSecretByte_rounds (i : Nat) (v : Byte) (s : State) : (setSecretByte i v s).rounds = s.rounds := rfl
@[simp] theorem setSecretByte_secret (i : Nat) (v : Byte) (s : State) : (setSecretByte i v s).secret = s.secret.write i v := rfl
@[simp] theorem setSecretByte_buf (i : Nat) (v : Byte) (s : State) : (setSecretByte i v s).buf = s.buf := rfl
@[simp] theorem setSecretByte_key (i : Nat) (v : Byte) (s : State) : (setSecretByte i v s).key = s.key := rfl
@[simp] theorem setSecretByte_fwd (i : Nat) (v : Byte) (s : State) : (setSecretByte i v s).fwd = s.fwd := rfl
@[simp] theorem setSecretByte_inv (i : Nat) (v : Byte) (s : State) : (setSecretByte i v s).inv = s.inv := rfl
@[simp] theorem setSecretByte_seq (i : Nat) (v : Byte) (s : State) : (setSecretByte i v s).seq = s.seq := rfl
@[simp] theorem setSecretByte_port (i : Nat) (v : Byte) (s : State) : (setSecretByte i v s).port = s.port := rfl
@[simp] theorem setSecretByte_replies (i : Nat) (v : Byte) (s : State) : (setSecretByte i v s).replies = s.replies := rfl
@[simp] theorem setSecretByte_epoch (i : Nat) (v : Byte) (s : State) : (setSecretByte i v s).epoch = s.epoch := rfl
@[simp] theorem setSecretByte_draws (i : Nat) (v : Byte) (s : State) : (setSecretByte i v s).draws = s.draws := rfl

@[simp] theorem setBufByte_params (i : Nat) (v : Byte) (s : State) : (setBufByte i v s).params = s.params := rfl
@[simp] theorem setBufByte_ctxValid (i : Nat) (v : Byte) (s : State) : (setBufByte i v s).ctxValid = s.ctxValid := rfl
@[simp] theorem setBufByte_err (i : Nat) (v : Byte) (s : State) : (setBufByte i v s).err = s.err := rfl
@[simp] theorem setBufByte_secretLen (i : Nat) (v : Byte) (s : State) : (setBufByte i v s).secretLen = s.secretLen := rfl
@[simp] theorem setBufByte_bufLen (i : Nat) (v : Byte) (s : State) : (setBufByte i v s).bufLen = s.bufLen := rfl
@[simp] theorem setBufByte_rounds (i : Nat) (v : Byte) (s : State) : (setBufByte i v s).rounds = s.rounds := rfl
@[simp] theorem setBufByte_secret (i : Nat) (v : Byte) (s : State) : (setBufByte i v s).secret = s.secret := rfl
@[simp] theorem setBufByte_buf (i : Nat) (v : Byte) (s : State) : (setBufByte i v s).buf = s.buf.write i v := rfl
@[simp] theorem setBufByte_key (i : Nat) (v : Byte) (s : State) : (setBufByte i v s).key = s.key := rfl
@[simp] theorem setBufByte_fwd (i : Nat) (v : Byte) (s : State) : (setBufByte i v s).fwd = s.fwd := rfl
@[simp] theorem setBufByte_inv (i : Nat) (v : Byte) (s : State) : (setBufByte i v s).inv = s.inv := rfl
@[simp] theorem setBufByte_seq (i : Nat) (v : Byte) (s : State) : (setBufByte i v s).seq = s.seq := rfl
@[simp] theorem setBufByte_port (i : Nat) (v : Byte) (s : State) : (setBufByte i v s).port = s.port := rfl
@[simp] theorem setBufByte_replies (i : Nat) (v : Byte) (s : State) : (setBufByte i v s).replies = s.replies := rfl
@[simp] theorem setBufByte_epoch (i : Nat) (v : Byte) (s : State) : (setBufByte i v s).epoch = s.epoch := rfl
@[simp] theorem setBufByte_draws (i : Nat) (v : Byte) (s : State) : (setBufByte i v s).draws = s.draws := rfl

@[simp] theorem setBufBytes_params (bs : List Byte) (s : State) : (setBufBytes bs s).params = s.params := rfl
@[simp] theorem setBufBytes_ctxValid (bs : List Byte) (s : State) : (setBufBytes bs s).ctxValid = s.ctxValid := rfl
@[simp] theorem setBufBytes_err (bs : List Byte) (s : State) : (setBufBytes bs s).err = s.err := rfl
@[simp] theorem setBufBytes_secretLen (bs : List Byte) (s : State) : (setBufBytes bs s).secretLen = s.secretLen := rfl
@[simp] theorem setBufBytes_bufLen (bs : List Byte) (s : State) : (setBufBytes bs s).bufLen = s.bufLen := rfl
@[simp] theorem setBufBytes_rounds (bs : List Byte) (s : State) : (setBufBytes bs s).rounds = s.rounds := rfl
@[simp] theorem setBufBytes_secret (bs : List Byte) (s : State) : (setBufBytes bs s).secret = s.secret := rfl
@[simp] theorem setBufBytes_buf (bs : List Byte) (s : State) : (setBufBytes bs s).buf = s.buf.writeFront bs := rfl
@[simp] theorem setBufBytes_key (bs : List Byte) (s : State) : (setBufBytes bs s).key = s.key := rfl
@[simp] theorem setBufBytes_fwd (bs : List Byte) (s : State) : (setBufBytes bs s).fwd = s.fwd := rfl
@[simp] theorem setBufBytes_inv (bs : List Byte) (s : State) : (setBufBytes bs s).inv = s.inv := rfl
@[simp] theorem setBufBytes_seq (bs : List Byte) (s : State) : (setBufBytes bs s).seq = s.seq := rfl
@[simp] theorem setBufBytes_port (bs : List Byte) (s : State) : (setBufBytes bs s).port = s.port := rfl
@[simp] theorem setBufBytes_replies (bs : List Byte) (s : State) : (setBufBytes bs s).replies = s.replies := rfl
@[simp] theorem setBufBytes_epoch (bs : List Byte) (s : State) : (setBufBytes bs s).epoch = s.epoch := rfl
@[simp] theorem setBufBytes_draws (bs : List Byte) (s : State) : (setBufBytes bs s).draws = s.draws := rfl

@[simp] theorem loadContext_params (k f g : List Byte) (r : BitVec 11) (s : State) : (loadContext k f g r s).params = s.params := rfl
@[simp] theorem loadContext_ctxValid (k f g : List Byte) (r : BitVec 11) (s : State) : (loadContext k f g r s).ctxValid = true := rfl
@[simp] theorem loadContext_err (k f g : List Byte) (r : BitVec 11) (s : State) : (loadContext k f g r s).err = s.err := rfl
@[simp] theorem loadContext_secretLen (k f g : List Byte) (r : BitVec 11) (s : State) : (loadContext k f g r s).secretLen = s.secretLen := rfl
@[simp] theorem loadContext_bufLen (k f g : List Byte) (r : BitVec 11) (s : State) : (loadContext k f g r s).bufLen = s.bufLen := rfl
@[simp] theorem loadContext_rounds (k f g : List Byte) (r : BitVec 11) (s : State) : (loadContext k f g r s).rounds = r := rfl
@[simp] theorem loadContext_secret (k f g : List Byte) (r : BitVec 11) (s : State) : (loadContext k f g r s).secret = s.secret := rfl
@[simp] theorem loadContext_buf (k f g : List Byte) (r : BitVec 11) (s : State) : (loadContext k f g r s).buf = s.buf := rfl
@[simp] theorem loadContext_key (k f g : List Byte) (r : BitVec 11) (s : State) : (loadContext k f g r s).key = Memory.ofBytes k := rfl
@[simp] theorem loadContext_fwd (k f g : List Byte) (r : BitVec 11) (s : State) : (loadContext k f g r s).fwd = Memory.ofBytes f := rfl
@[simp] theorem loadContext_inv (k f g : List Byte) (r : BitVec 11) (s : State) : (loadContext k f g r s).inv = Memory.ofBytes g := rfl
@[simp] theorem loadContext_seq (k f g : List Byte) (r : BitVec 11) (s : State) : (loadContext k f g r s).seq = s.seq := rfl
@[simp] theorem loadContext_port (k f g : List Byte) (r : BitVec 11) (s : State) : (loadContext k f g r s).port = s.port := rfl
@[simp] theorem loadContext_replies (k f g : List Byte) (r : BitVec 11) (s : State) : (loadContext k f g r s).replies = s.replies := rfl
@[simp] theorem loadContext_epoch (k f g : List Byte) (r : BitVec 11) (s : State) : (loadContext k f g r s).epoch = s.epoch := rfl
@[simp] theorem loadContext_draws (k f g : List Byte) (r : BitVec 11) (s : State) : (loadContext k f g r s).draws = s.draws := rfl

@[simp] theorem raiseError_params (c : ErrCode) (s : State) : (raiseError c s).params = s.params := rfl
@[simp] theorem raiseError_ctxValid (c : ErrCode) (s : State) : (raiseError c s).ctxValid = s.ctxValid := rfl
@[simp] theorem raiseError_err (c : ErrCode) (s : State) : (raiseError c s).err = c := rfl
@[simp] theorem raiseError_secretLen (c : ErrCode) (s : State) : (raiseError c s).secretLen = s.secretLen := rfl
@[simp] theorem raiseError_bufLen (c : ErrCode) (s : State) : (raiseError c s).bufLen = s.bufLen := rfl
@[simp] theorem raiseError_rounds (c : ErrCode) (s : State) : (raiseError c s).rounds = s.rounds := rfl
@[simp] theorem raiseError_secret (c : ErrCode) (s : State) : (raiseError c s).secret = s.secret := rfl
@[simp] theorem raiseError_buf (c : ErrCode) (s : State) : (raiseError c s).buf = s.buf := rfl
@[simp] theorem raiseError_key (c : ErrCode) (s : State) : (raiseError c s).key = s.key := rfl
@[simp] theorem raiseError_fwd (c : ErrCode) (s : State) : (raiseError c s).fwd = s.fwd := rfl
@[simp] theorem raiseError_inv (c : ErrCode) (s : State) : (raiseError c s).inv = s.inv := rfl
@[simp] theorem raiseError_seq (c : ErrCode) (s : State) : (raiseError c s).seq = s.seq := rfl
@[simp] theorem raiseError_port (c : ErrCode) (s : State) : (raiseError c s).port = s.port := rfl
@[simp] theorem raiseError_replies (c : ErrCode) (s : State) : (raiseError c s).replies = s.replies := rfl
@[simp] theorem raiseError_epoch (c : ErrCode) (s : State) : (raiseError c s).epoch = s.epoch := rfl
@[simp] theorem raiseError_draws (c : ErrCode) (s : State) : (raiseError c s).draws = s.draws := rfl

@[simp] theorem finish_params (s : State) : (finish s).params = s.params := rfl
@[simp] theorem finish_ctxValid (s : State) : (finish s).ctxValid = s.ctxValid := rfl
@[simp] theorem finish_err (s : State) : (finish s).err = .ok := rfl
@[simp] theorem finish_secretLen (s : State) : (finish s).secretLen = s.secretLen := rfl
@[simp] theorem finish_bufLen (s : State) : (finish s).bufLen = s.bufLen := rfl
@[simp] theorem finish_rounds (s : State) : (finish s).rounds = s.rounds := rfl
@[simp] theorem finish_secret (s : State) : (finish s).secret = s.secret := rfl
@[simp] theorem finish_buf (s : State) : (finish s).buf = s.buf := rfl
@[simp] theorem finish_key (s : State) : (finish s).key = s.key := rfl
@[simp] theorem finish_fwd (s : State) : (finish s).fwd = s.fwd := rfl
@[simp] theorem finish_inv (s : State) : (finish s).inv = s.inv := rfl
@[simp] theorem finish_seq (s : State) : (finish s).seq = freeSequencers s.draws := rfl
@[simp] theorem finish_port (s : State) : (finish s).port = s.port := rfl
@[simp] theorem finish_replies (s : State) : (finish s).replies = s.replies := rfl
@[simp] theorem finish_epoch (s : State) : (finish s).epoch = s.epoch := rfl
@[simp] theorem finish_draws (s : State) : (finish s).draws = s.draws + 1 := rfl

@[simp] theorem takeReset_params (s : State) : (takeReset s).params = s.params := rfl
@[simp] theorem takeReset_ctxValid (s : State) : (takeReset s).ctxValid = false := rfl
@[simp] theorem takeReset_err (s : State) : (takeReset s).err = .ok := rfl
@[simp] theorem takeReset_secretLen (s : State) : (takeReset s).secretLen = 0 := rfl
@[simp] theorem takeReset_bufLen (s : State) : (takeReset s).bufLen = 0 := rfl
@[simp] theorem takeReset_rounds (s : State) : (takeReset s).rounds = 0 := rfl
@[simp] theorem takeReset_secret (s : State) : (takeReset s).secret = [] := rfl
@[simp] theorem takeReset_buf (s : State) : (takeReset s).buf = [] := rfl
@[simp] theorem takeReset_key (s : State) : (takeReset s).key = [] := rfl
@[simp] theorem takeReset_fwd (s : State) : (takeReset s).fwd = [] := rfl
@[simp] theorem takeReset_inv (s : State) : (takeReset s).inv = [] := rfl
@[simp] theorem takeReset_seq (s : State) : (takeReset s).seq = freeSequencers s.draws := rfl
@[simp] theorem takeReset_port (s : State) : (takeReset s).port = s.port := rfl
@[simp] theorem takeReset_replies (s : State) : (takeReset s).replies = s.replies := rfl
@[simp] theorem takeReset_epoch (s : State) : (takeReset s).epoch = s.epoch + 1 := rfl
@[simp] theorem takeReset_draws (s : State) : (takeReset s).draws = s.draws + 1 := rfl

@[simp] theorem reply_params (r : Reply) (s : State) : (reply r s).params = s.params := rfl
@[simp] theorem reply_ctxValid (r : Reply) (s : State) : (reply r s).ctxValid = s.ctxValid := rfl
@[simp] theorem reply_err (r : Reply) (s : State) : (reply r s).err = s.err := rfl
@[simp] theorem reply_secretLen (r : Reply) (s : State) : (reply r s).secretLen = s.secretLen := rfl
@[simp] theorem reply_bufLen (r : Reply) (s : State) : (reply r s).bufLen = s.bufLen := rfl
@[simp] theorem reply_rounds (r : Reply) (s : State) : (reply r s).rounds = s.rounds := rfl
@[simp] theorem reply_secret (r : Reply) (s : State) : (reply r s).secret = s.secret := rfl
@[simp] theorem reply_buf (r : Reply) (s : State) : (reply r s).buf = s.buf := rfl
@[simp] theorem reply_key (r : Reply) (s : State) : (reply r s).key = s.key := rfl
@[simp] theorem reply_fwd (r : Reply) (s : State) : (reply r s).fwd = s.fwd := rfl
@[simp] theorem reply_inv (r : Reply) (s : State) : (reply r s).inv = s.inv := rfl
@[simp] theorem reply_seq (r : Reply) (s : State) : (reply r s).seq = s.seq := rfl
@[simp] theorem reply_port (r : Reply) (s : State) : (reply r s).port = s.port := rfl
@[simp] theorem reply_replies (r : Reply) (s : State) : (reply r s).replies = s.replies ++ [r] := rfl
@[simp] theorem reply_epoch (r : Reply) (s : State) : (reply r s).epoch = s.epoch := rfl
@[simp] theorem reply_draws (r : Reply) (s : State) : (reply r s).draws = s.draws := rfl

@[simp] theorem setPort_params (rest : List Event) (s : State) : (setPort rest s).params = s.params := rfl
@[simp] theorem setPort_ctxValid (rest : List Event) (s : State) : (setPort rest s).ctxValid = s.ctxValid := rfl
@[simp] theorem setPort_err (rest : List Event) (s : State) : (setPort rest s).err = s.err := rfl
@[simp] theorem setPort_secretLen (rest : List Event) (s : State) : (setPort rest s).secretLen = s.secretLen := rfl
@[simp] theorem setPort_bufLen (rest : List Event) (s : State) : (setPort rest s).bufLen = s.bufLen := rfl
@[simp] theorem setPort_rounds (rest : List Event) (s : State) : (setPort rest s).rounds = s.rounds := rfl
@[simp] theorem setPort_secret (rest : List Event) (s : State) : (setPort rest s).secret = s.secret := rfl
@[simp] theorem setPort_buf (rest : List Event) (s : State) : (setPort rest s).buf = s.buf := rfl
@[simp] theorem setPort_key (rest : List Event) (s : State) : (setPort rest s).key = s.key := rfl
@[simp] theorem setPort_fwd (rest : List Event) (s : State) : (setPort rest s).fwd = s.fwd := rfl
@[simp] theorem setPort_inv (rest : List Event) (s : State) : (setPort rest s).inv = s.inv := rfl
@[simp] theorem setPort_seq (rest : List Event) (s : State) : (setPort rest s).seq = s.seq := rfl
@[simp] theorem setPort_port (rest : List Event) (s : State) : (setPort rest s).port = rest := rfl
@[simp] theorem setPort_replies (rest : List Event) (s : State) : (setPort rest s).replies = s.replies := rfl
@[simp] theorem setPort_epoch (rest : List Event) (s : State) : (setPort rest s).epoch = s.epoch := rfl
@[simp] theorem setPort_draws (rest : List Event) (s : State) : (setPort rest s).draws = s.draws := rfl

end Sys2Proof.Machine
end

