-- ==== Sys2Proof/Laws/Memory.lean ====
section
/-! SUPPORT. The laws of memories: a read after a write, the canonical form, and what each update of the state does to
each byte of each memory. -/

namespace Sys2Proof.Machine

open Sys2Proof.Config

/-! ### Memories as data -/

@[simp] theorem Memory.read_nil (a : Nat) : Memory.read [] a = none := rfl

theorem Memory.read_cons (b : Nat) (w : Byte) (m : Memory) (a : Nat) :
    Memory.read ((b, w) :: m) a = if a = b then some w else Memory.read m a := by
  unfold Memory.read
  by_cases h : a = b
  · simp [List.lookup, h]
  · simp [List.lookup, h, beq_false_of_ne h]

theorem Memory.read_append (m n : Memory) (a : Nat) :
    Memory.read (m ++ n) a = (Memory.read m a).or (Memory.read n a) := by
  induction m with
  | nil => simp
  | cons c m ih =>
    obtain ⟨b, w⟩ := c
    simp only [List.cons_append, Memory.read_cons, ih]
    split <;> simp

theorem Memory.read_write_same (m : Memory) (a : Nat) (v : Byte) :
    Memory.read (m.write a v) a = some v := by
  induction m with
  | nil => simp [Memory.write, Memory.read_cons]
  | cons c m ih =>
    obtain ⟨b, w⟩ := c
    unfold Memory.write
    split
    · simp [Memory.read_cons]
    · split
      · simp [Memory.read_cons]
      · simp [Memory.read_cons, *]

theorem Memory.read_write_other (m : Memory) {a x : Nat} (v : Byte) (h : x ≠ a) :
    Memory.read (m.write a v) x = Memory.read m x := by
  induction m with
  | nil => simp [Memory.write, Memory.read_cons, h]
  | cons c m ih =>
    obtain ⟨b, w⟩ := c
    unfold Memory.write
    split
    · simp [Memory.read_cons, h]
    · split
      · rename_i hb
        subst hb
        simp [Memory.read_cons, h]
      · simp [Memory.read_cons, ih]

theorem Memory.mem_write (m : Memory) (a : Nat) (v : Byte) {c : Host.Cell} (h : c ∈ m.write a v) :
    c = (a, v) ∨ c ∈ m := by
  induction m with
  | nil => simpa [Memory.write] using h
  | cons d m ih =>
    obtain ⟨b, w⟩ := d
    unfold Memory.write at h
    split at h
    · simpa using h
    · split at h
      · rcases List.mem_cons.1 h with h | h <;> simp [h]
      · rcases List.mem_cons.1 h with h | h
        · simp [h]
        · rcases ih h with h | h <;> simp [h]

/-- A write keeps the canonical form. -/
theorem Memory.wf_write (m : Memory) (a : Nat) (v : Byte) (h : Memory.wf m) : Memory.wf (m.write a v) := by
  induction m with
  | nil => simp [Memory.write, Memory.wf]
  | cons c m ih =>
    obtain ⟨b, w⟩ := c
    obtain ⟨hb, hm⟩ := List.pairwise_cons.1 h
    unfold Memory.write
    split
    · rename_i hab
      refine List.pairwise_cons.2 ⟨?_, h⟩
      intro d hd
      rcases List.mem_cons.1 hd with rfl | hd
      · exact hab
      · exact Nat.lt_trans hab (hb d hd)
    · split
      · rename_i hab
        subst hab
        exact List.pairwise_cons.2 ⟨hb, hm⟩
      · rename_i h1 h2
        refine List.pairwise_cons.2 ⟨?_, ih hm⟩
        intro d hd
        rcases Memory.mem_write m a v hd with rfl | hd
        · show b < a
          omega
        · exact hb d hd

theorem Memory.read_ofBytesFrom (bs : List Byte) (i a : Nat) :
    Memory.read (Memory.ofBytesFrom i bs) a = if i ≤ a then bs[a - i]? else none := by
  induction bs generalizing i with
  | nil => simp [Memory.ofBytesFrom]
  | cons v bs ih =>
    simp only [Memory.ofBytesFrom, Memory.read_cons, ih]
    rcases Nat.lt_trichotomy a i with h | h | h
    · simp [Nat.ne_of_lt h, Nat.not_le.2 h, show ¬ i + 1 ≤ a by omega]
    · simp [h]
    · have : a - i = (a - (i + 1)) + 1 := by omega
      simp [Nat.ne_of_gt h, show i ≤ a by omega, show i + 1 ≤ a by omega, this]

theorem Memory.read_ofBytes (bs : List Byte) (a : Nat) : Memory.read (Memory.ofBytes bs) a = bs[a]? := by
  simp [Memory.ofBytes, Memory.read_ofBytesFrom]

theorem Memory.mem_ofBytesFrom {bs : List Byte} {i : Nat} {c : Host.Cell} (h : c ∈ Memory.ofBytesFrom i bs) :
    i ≤ c.1 ∧ c.1 < i + bs.length := by
  induction bs generalizing i with
  | nil => simp [Memory.ofBytesFrom] at h
  | cons v bs ih =>
    rcases List.mem_cons.1 h with rfl | h
    · simp
    · have := ih h
      simp only [List.length_cons]
      omega

theorem Memory.wf_ofBytesFrom (bs : List Byte) (i : Nat) : Memory.wf (Memory.ofBytesFrom i bs) := by
  induction bs generalizing i with
  | nil => simp [Memory.ofBytesFrom, Memory.wf]
  | cons v bs ih =>
    refine List.pairwise_cons.2 ⟨?_, ih (i + 1)⟩
    intro c hc
    have := (Memory.mem_ofBytesFrom hc).1
    show i < c.1
    omega

theorem Memory.wf_ofBytes (bs : List Byte) : Memory.wf (Memory.ofBytes bs) := Memory.wf_ofBytesFrom bs 0

theorem Memory.mem_ofBytes {bs : List Byte} {c : Host.Cell} (h : c ∈ Memory.ofBytes bs) : c.1 < bs.length := by
  have := (Memory.mem_ofBytesFrom h).2
  omega

theorem Memory.read_filter_ge (m : Memory) {n a : Nat} (h : n ≤ a) :
    Memory.read (m.filter (fun c => decide (n ≤ c.1))) a = Memory.read m a := by
  induction m with
  | nil => rfl
  | cons c m ih =>
    obtain ⟨b, w⟩ := c
    by_cases hb : n ≤ b
    · simp [hb, Memory.read_cons, ih]
    · simp [hb, Memory.read_cons, ih, show a ≠ b by omega]

/-- The bytes written by `writeFront`, and the bytes it leaves alone. -/
theorem Memory.read_writeFront (m : Memory) (bs : List Byte) (a : Nat) :
    Memory.read (m.writeFront bs) a = if a < bs.length then bs[a]? else Memory.read m a := by
  unfold Memory.writeFront
  rw [Memory.read_append, Memory.read_ofBytes]
  split
  · rename_i h
    simp [List.getElem?_eq_getElem h]
  · rename_i h
    have h : bs.length ≤ a := Nat.not_lt.1 h
    simp [List.getElem?_eq_none h, Memory.read_filter_ge m h]

theorem Memory.mem_writeFront {m : Memory} {bs : List Byte} {c : Host.Cell} (h : c ∈ m.writeFront bs) :
    c.1 < bs.length ∨ c ∈ m := by
  unfold Memory.writeFront at h
  rcases List.mem_append.1 h with h | h
  · exact .inl (Memory.mem_ofBytes h)
  · exact .inr (List.mem_of_mem_filter h)

/-- `writeFront` keeps the canonical form. -/
theorem Memory.wf_writeFront (m : Memory) (bs : List Byte) (h : Memory.wf m) : Memory.wf (m.writeFront bs) := by
  refine List.pairwise_append.2 ⟨Memory.wf_ofBytes bs, List.Pairwise.filter _ h, ?_⟩
  intro c hc d hd
  have h1 := Memory.mem_ofBytes hc
  have h2 : bs.length ≤ d.1 := by simpa using (List.mem_filter.1 hd).2
  omega

/-! ### The memories after each update -/

@[simp] theorem bankOf_raiseError (c : ErrCode) (s : State) (b : Bank) : bankOf (raiseError c s) b = bankOf s b := by
  cases b <;> rfl

@[simp] theorem bankOf_finish (s : State) (b : Bank) : bankOf (finish s) b = bankOf s b := by cases b <;> rfl

@[simp] theorem bankOf_reply (r : Reply) (s : State) (b : Bank) : bankOf (reply r s) b = bankOf s b := by
  cases b <;> rfl

@[simp] theorem bankOf_setPort (rest : List Event) (s : State) (b : Bank) :
    bankOf (setPort rest s) b = bankOf s b := by cases b <;> rfl

@[simp] theorem bankOf_takeReset (s : State) (b : Bank) : bankOf (takeReset s) b = [] := by cases b <;> rfl

@[simp] theorem bankOf_setBufBytes_of_ne (bs : List Byte) (s : State) {b : Bank} (h : b ≠ .buf) :
    bankOf (setBufBytes bs s) b = bankOf s b := by cases b <;> first | rfl | exact absurd rfl h

@[simp] theorem bankOf_setBufByte_of_ne (i : Nat) (v : Byte) (s : State) {b : Bank} (h : b ≠ .buf) :
    bankOf (setBufByte i v s) b = bankOf s b := by cases b <;> first | rfl | exact absurd rfl h

@[simp] theorem bankOf_setSecretByte_of_ne (i : Nat) (v : Byte) (s : State) {b : Bank} (h : b ≠ .secret) :
    bankOf (setSecretByte i v s) b = bankOf s b := by cases b <;> first | rfl | exact absurd rfl h

/-! ### Bytes of the state's memories -/

@[simp] theorem bytesAt_length (s : State) (b : Bank) (n : Nat) : (bytesAt s b n).length = n := by
  simp [bytesAt]

@[simp] theorem bytesAt_getElem (s : State) (b : Bank) (n i : Nat) (h : i < (bytesAt s b n).length) :
    (bytesAt s b n)[i] = byteAt s b i := by
  simp [bytesAt]

@[simp] theorem bufBytes_length (s : State) : (bufBytes s).length = bufLength s := bytesAt_length _ _ _

@[simp] theorem secretBytes_length (s : State) : (secretBytes s).length = secretLength s := bytesAt_length _ _ _

/-- A byte depends on its memory and on the draw of the last reset only. -/
theorem byteAt_congr {s t : State} {b : Bank} (hm : bankOf t b = bankOf s b) (he : t.epoch = s.epoch) (i : Nat) :
    byteAt t b i = byteAt s b i := by
  unfold byteAt
  rw [hm, he]

theorem byteAt_setBufBytes (bs : List Byte) (s : State) (i : Nat) :
    byteAt (setBufBytes bs s) .buf i = if h : i < bs.length then bs[i] else byteAt s .buf i := by
  simp only [byteAt, bankOf, setBufBytes_buf, setBufBytes_epoch, Memory.read_writeFront]
  split <;> simp [*]

theorem byteAt_setBufByte (j : Nat) (v : Byte) (s : State) (i : Nat) :
    byteAt (setBufByte j v s) .buf i = if i = j then v else byteAt s .buf i := by
  by_cases h : i = j
  · subst h
    simp [byteAt, bankOf, Memory.read_write_same]
  · simp [byteAt, bankOf, Memory.read_write_other _ _ h, h]

theorem byteAt_setSecretByte (j : Nat) (v : Byte) (s : State) (i : Nat) :
    byteAt (setSecretByte j v s) .secret i = if i = j then v else byteAt s .secret i := by
  by_cases h : i = j
  · subst h
    simp [byteAt, bankOf, Memory.read_write_same]
  · simp [byteAt, bankOf, Memory.read_write_other _ _ h, h]

/-- Every memory after a reset has a new draw at every position (R231). -/
theorem byteAt_takeReset (s : State) (b : Bank) (i : Nat) :
    byteAt (takeReset s) b i = freeByte (s.epoch + 1) b i := by
  cases b <;> rfl

/-- Reading back the bytes that an in-place pass over the whole buffer wrote. -/
theorem bufBytes_setBufBytes (bs : List Byte) (s : State) (h : bs.length = bufLength s) :
    bufBytes (setBufBytes bs s) = bs := by
  apply List.ext_getElem
  · simp [bufLength] at h ⊢
    omega
  · intro i h1 h2
    simp only [bufBytes, bytesAt_getElem, byteAt_setBufBytes, h2, dite_true]

end Sys2Proof.Machine
end

