-- ==== Sys2Proof/Laws/Rotation.lean ====
section
/-! SUPPORT. The laws of windows and of the rotation unit: lengths, what a window's write does to a window's read, the
rotations of a word, and where the windows of an operation list lie. -/

namespace Sys2Proof.Machine

open Sys2Proof.Config

/-! ### Words and bytes -/

@[simp] theorem bytesOfWordLE_length (w : Window) : (bytesOfWordLE w).length = 8 := by
  simp [bytesOfWordLE]

@[simp] theorem bytesOfWord_length (o : ByteOrder) (w : Window) : (bytesOfWord o w).length = 8 := by
  cases o <;> simp [bytesOfWord]

/-- Bit `i` of a word is bit `i mod 8` of its byte `i div 8`. -/
theorem wordOfBytesLE_getLsbD (bs : List Byte) (i : Nat) (hi : i < 64) :
    (wordOfBytesLE bs).getLsbD i = (bs.getD (i / 8) 0).getLsbD (i % 8) := by
  induction bs generalizing i with
  | nil => simp [wordOfBytesLE]
  | cons b bs ih =>
    have h : wordOfBytesLE (b :: bs) = (wordOfBytesLE bs <<< 8) ||| b.setWidth 64 := rfl
    rw [h, BitVec.getLsbD_or, BitVec.getLsbD_shiftLeft, BitVec.getLsbD_setWidth]
    by_cases h8 : i < 8
    · simp [h8, Nat.div_eq_of_lt h8, Nat.mod_eq_of_lt h8, hi]
    · have h1 : i / 8 = (i - 8) / 8 + 1 := by omega
      have h2 : i % 8 = (i - 8) % 8 := by omega
      rw [ih (i - 8) (by omega), h1, h2]
      simp [h8, hi, BitVec.getLsbD_of_ge b i (by omega)]

theorem bytesOfWordLE_getD (w : Window) (j : Nat) (hj : j < 8) :
    (bytesOfWordLE w).getD j 0 = (w >>> (8 * j)).setWidth 8 := by
  simp [bytesOfWordLE, List.getD_eq_getElem?_getD, hj]

theorem wordOfBytesLE_bytesOfWordLE (w : Window) : wordOfBytesLE (bytesOfWordLE w) = w := by
  apply BitVec.eq_of_getLsbD_eq
  intro i hi
  rw [wordOfBytesLE_getLsbD _ _ hi, bytesOfWordLE_getD _ _ (by omega), BitVec.getLsbD_setWidth,
    BitVec.getLsbD_ushiftRight]
  have h : 8 * (i / 8) + i % 8 = i := by omega
  simp [h, show i % 8 < 8 by omega]

theorem bytesOfWordLE_wordOfBytesLE (bs : List Byte) (h : bs.length = 8) :
    bytesOfWordLE (wordOfBytesLE bs) = bs := by
  apply List.ext_getElem
  · simp [h]
  · intro j h1 h2
    simp only [bytesOfWordLE, List.getElem_map, List.getElem_range]
    apply BitVec.eq_of_getLsbD_eq
    intro i hi
    have hj : j < 8 := by omega
    rw [BitVec.getLsbD_setWidth, BitVec.getLsbD_ushiftRight, wordOfBytesLE_getLsbD _ _ (by omega)]
    have e1 : (8 * j + i) / 8 = j := by omega
    have e2 : (8 * j + i) % 8 = i := by omega
    simp [e1, e2, hi, h2]

theorem wordOfBytes_bytesOfWord (o : ByteOrder) (w : Window) : wordOfBytes o (bytesOfWord o w) = w := by
  cases o <;> simp [wordOfBytes, bytesOfWord, wordOfBytesLE_bytesOfWordLE]

theorem bytesOfWord_wordOfBytes (o : ByteOrder) (bs : List Byte) (h : bs.length = 8) :
    bytesOfWord o (wordOfBytes o bs) = bs := by
  cases o
  · simp [wordOfBytes, bytesOfWord, bytesOfWordLE_wordOfBytesLE bs h]
  · simp [wordOfBytes, bytesOfWord, bytesOfWordLE_wordOfBytesLE bs.reverse (by simp [h])]

/-! ### Windows -/

theorem writeWindow_length (o : ByteOrder) (xs : List Byte) (off : Nat) (w : Window)
    (h : off + 8 ≤ xs.length) : (writeWindow o xs off w).length = xs.length := by
  simp only [writeWindow, List.length_append, List.length_take, List.length_drop, bytesOfWord_length]
  omega

theorem readWindow_writeWindow (o : ByteOrder) (xs : List Byte) (off : Nat) (w : Window)
    (h : off + 8 ≤ xs.length) : readWindow o (writeWindow o xs off w) off = w := by
  have ht : (xs.take off).length = off := by simp; omega
  have : ((writeWindow o xs off w).drop off).take 8 = bytesOfWord o w := by
    unfold writeWindow
    rw [List.append_assoc, List.drop_append, ht]
    simp
  rw [readWindow, this, wordOfBytes_bytesOfWord]

theorem writeWindow_readWindow (o : ByteOrder) (xs : List Byte) (off : Nat)
    (h : off + 8 ≤ xs.length) : writeWindow o xs off (readWindow o xs off) = xs := by
  unfold writeWindow readWindow
  rw [bytesOfWord_wordOfBytes o _ (by simp only [List.length_take, List.length_drop]; omega),
    List.append_assoc, ← List.drop_drop, List.take_append_drop, List.take_append_drop]

theorem writeWindow_writeWindow (o : ByteOrder) (xs : List Byte) (off : Nat) (v w : Window)
    (h : off + 8 ≤ xs.length) : writeWindow o (writeWindow o xs off v) off w = writeWindow o xs off w := by
  have ht : (xs.take off).length = off := by simp; omega
  unfold writeWindow
  congr 1
  · congr 1
    rw [List.append_assoc, List.take_append, ht]
    simp
  · rw [List.append_assoc, List.drop_append, ht, List.drop_append, bytesOfWord_length]
    simp [List.drop_eq_nil_of_le, ht]

/-- A byte outside the window is not written. -/
theorem writeWindow_getElem?_outside (o : ByteOrder) (xs : List Byte) (off : Nat) (w : Window)
    (h : off + 8 ≤ xs.length) (i : Nat) (hi : i < off ∨ off + 8 ≤ i) :
    (writeWindow o xs off w)[i]? = xs[i]? := by
  have ht : (xs.take off).length = off := by simp; omega
  unfold writeWindow
  rcases hi with hi | hi
  · rw [List.append_assoc, List.getElem?_append_left (by omega), List.getElem?_take_of_lt hi]
  · have hl : (xs.take off ++ bytesOfWord o w).length = off + 8 := by simp [ht]
    rw [List.getElem?_append_right (by omega), List.getElem?_drop, hl]
    congr 1
    omega

/-! ### Rotating a word -/

theorem rol64_eq_rotateLeft (w : Window) {k : Nat} (h : k < 64) : rol64 w k = w.rotateLeft k := by
  unfold rol64
  split
  · subst k
    simp [BitVec.rotateLeft_def, BitVec.ushiftRight_eq_zero]
  · rw [BitVec.rotateLeft_def, Nat.mod_eq_of_lt h]

theorem ror64_eq_rotateRight (w : Window) {k : Nat} (h : k < 64) : ror64 w k = w.rotateRight k := by
  unfold ror64
  split
  · subst k
    simp [BitVec.rotateRight_def, BitVec.shiftLeft_eq_zero]
  · rw [BitVec.rotateRight_def, Nat.mod_eq_of_lt h]

/-! ### The operation list -/

theorem rotAmount_lt (s : State) (p j : Nat) : rotAmount s p j < 64 := by
  have h (b : Byte) : (b &&& 63).toNat < 64 := by
    have : (b &&& 63).toNat ≤ 63 := by
      rw [BitVec.toNat_and]
      exact Nat.and_le_right
    omega
  unfold rotAmount
  exact h _

theorem interiorStart_le (s : State) (p : Nat) : interiorStart s p ≤ 7 := by
  unfold interiorStart
  rw [BitVec.toNat_and]
  exact Nat.and_le_right

/-- The interior offsets lie from `start` on, below `max`, and differ from it by multiples of 8. -/
theorem mem_interiorOffsets {start max sc : Nat} :
    sc ∈ interiorOffsets start max ↔ start ≤ sc ∧ sc < max ∧ (sc - start) % 8 = 0 := by
  simp only [interiorOffsets, List.mem_map, List.mem_range]
  constructor
  · rintro ⟨i, hi, rfl⟩
    omega
  · rintro ⟨h1, h2, h3⟩
    exact ⟨(sc - start) / 8, by omega, by omega⟩

/-- Every window of an operation list lies inside the buffer, and every amount in 0..63. -/
theorem opList_mem {s : State} {p L : Nat} {op : Nat × Nat} (h : op ∈ opList s p L) :
    op.1 + 8 ≤ L ∧ op.2 < 64 := by
  unfold opList at h
  split at h
  · simp at h
  · rename_i hL
    simp only [List.mem_append, List.mem_map, List.mem_singleton] at hL h
    rcases h with (rfl | h) | ⟨sc, hsc, rfl⟩
    · exact ⟨by show 0 + 8 ≤ L; omega, rotAmount_lt _ _ _⟩
    · by_cases h1 : 1 ≤ L - 8
      · rw [if_pos h1, List.mem_singleton] at h
        subst h
        exact ⟨by show L - 8 - 1 + 8 ≤ L; omega, rotAmount_lt _ _ _⟩
      · rw [if_neg h1] at h
        simp at h
    · have := mem_interiorOffsets.1 hsc
      exact ⟨by show sc + 8 ≤ L; omega, rotAmount_lt _ _ _⟩

/-- A sequence of window operations inside the buffer keeps its length. -/
theorem foldl_windows_length (f : List Byte → Nat × Nat → List Byte) (L : Nat)
    (hf : ∀ xs op, xs.length = L → op.1 + 8 ≤ L → (f xs op).length = L) :
    ∀ (ops : List (Nat × Nat)) (xs : List Byte), xs.length = L → (∀ op ∈ ops, op.1 + 8 ≤ L) →
      (ops.foldl f xs).length = L := by
  intro ops
  induction ops with
  | nil => intro xs h _; exact h
  | cons op ops ih =>
    intro xs h hop
    exact ih _ (hf xs op h (hop op (by simp))) (fun o ho => hop o (by simp [ho]))

@[simp] theorem rotFwd_length (s : State) (p : Byte) (xs : List Byte) : (rotFwd s p xs).length = xs.length := by
  unfold rotFwd
  refine foldl_windows_length _ xs.length (fun ys op h ho => ?_) _ _ rfl (fun op h => (opList_mem h).1)
  rw [rotateLeftAt, writeWindow_length _ _ _ _ (by omega), h]

@[simp] theorem rotBwd_length (s : State) (p : Byte) (xs : List Byte) : (rotBwd s p xs).length = xs.length := by
  unfold rotBwd
  refine foldl_windows_length _ xs.length (fun ys op h ho => ?_) _ _ rfl
    (fun op h => (opList_mem (List.mem_reverse.1 h)).1)
  rw [rotateRightAt, writeWindow_length _ _ _ _ (by omega), h]

end Sys2Proof.Machine
end

