-- ==== Sys2Proof/Laws/Commands.lean ====
section
/-! SUPPORT. What a command, a transaction and a step can do, said once: the shapes of their outcomes. -/

namespace Sys2Proof.Machine

/-! ### The passes over the buffer keep its length -/

@[simp] theorem whitenBytes_length (s : State) (xs : List Byte) : (whitenBytes s xs).length = xs.length := by
  simp [whitenBytes]

@[simp] theorem subFwd_length (s : State) (p : Byte) (xs : List Byte) : (subFwd s p xs).length = xs.length := by
  simp [subFwd]

@[simp] theorem subRev_length (s : State) (p : Byte) (xs : List Byte) : (subRev s p xs).length = xs.length := by
  simp [subRev]

theorem foldl_length_of_step {α β : Type} (f : List β → α → List β) (hf : ∀ xs a, (f xs a).length = xs.length) :
    ∀ (l : List α) (xs : List β), (l.foldl f xs).length = xs.length := by
  intro l
  induction l with
  | nil => intro xs; rfl
  | cons a l ih => intro xs; rw [List.foldl_cons, ih, hf]

@[simp] theorem encryptBytes_length (s : State) (R : Nat) (xs : List Byte) :
    (encryptBytes s R xs).length = xs.length := by
  unfold encryptBytes
  rw [foldl_length_of_step _ (fun ys r => by simp [encryptRound]), whitenBytes_length]

@[simp] theorem decryptBytes_length (s : State) (R : Nat) (xs : List Byte) :
    (decryptBytes s R xs).length = xs.length := by
  unfold decryptBytes
  rw [whitenBytes_length, foldl_length_of_step _ (fun ys r => by simp [decryptRound])]

/-! ### Commands over the buffer -/

/-- The pass over the buffer that a command stands for; none for INIT, which has no such pass. -/
def bufferPass (s : State) : Instr → Option (List Byte → List Byte)
  | .init _ => none
  | .encrypt => some (encryptBytes s s.rounds.toNat)
  | .decrypt => some (decryptBytes s s.rounds.toNat)
  | .whiten => some (whitenBytes s)
  | .subf p => some (subFwd s p)
  | .subr p => some (subRev s p)
  | .rotf p => some (rotFwd s p)
  | .rotb p => some (rotBwd s p)

theorem bufferPass_length {s : State} {i : Instr} {f : List Byte → List Byte} (h : bufferPass s i = some f)
    (xs : List Byte) : (f xs).length = xs.length := by
  cases i <;> simp [bufferPass] at h <;> subst h <;> simp

/-- Every command but INIT is its pass, run behind the checks of R203. -/
theorem exec_eq_runOnBuffer {s : State} {i : Instr} {f : List Byte → List Byte} (h : bufferPass s i = some f) :
    exec i s = runOnBuffer f s := by
  cases i <;> simp [bufferPass] at h <;> subst h <;> rfl

theorem bufferError_eq_none {c : Bool} {L : Nat} : bufferError c L = none ↔ c = true ∧ L ≤ 65536 := by
  unfold bufferError
  cases c <;> simp

theorem runOnBuffer_of_ok {s : State} (f : List Byte → List Byte) (hc : s.ctxValid = true)
    (hL : bufLength s ≤ 65536) : runOnBuffer f s = .next (finish (setBufBytes (f (bufBytes s)) s)) := by
  unfold runOnBuffer
  rw [bufferError_eq_none.2 ⟨hc, hL⟩]

/-- What a command can end in (R201, R202): an error that changes only ERR; for a command over the buffer, its pass;
for INIT, the new context, or the table builder's fault. -/
theorem exec_cases (i : Instr) (s : State) :
    (∃ e, e ≠ .ok ∧ exec i s = .next (raiseError e s)) ∨
    (∃ f, bufferPass s i = some f ∧ s.ctxValid = true ∧ bufLength s ≤ 65536 ∧
      exec i s = .next (finish (setBufBytes (f (bufBytes s)) s))) ∨
    (∃ R, i = .init R ∧ initError (secretLength s) R.toNat = none ∧
      ((∃ t, buildTables (keySchedule (secretBytes s)) = some t ∧
          exec i s = .next (finish (loadContext (keySchedule (secretBytes s)) t.fwd t.inv (R.setWidth 11) s))) ∨
        (buildTables (keySchedule (secretBytes s)) = none ∧ exec i s = .fault .probeExhausted))) := by
  rcases hi : bufferPass s i with _ | f
  · cases i <;> simp [bufferPass] at hi
    rename_i R
    rcases he : initError (secretLength s) R.toNat with _ | e
    · refine .inr (.inr ⟨R, rfl, he, ?_⟩)
      rcases hb : buildTables (keySchedule (secretBytes s)) with _ | t
      · exact .inr ⟨rfl, by simp [exec, execInit, he, hb]⟩
      · exact .inl ⟨t, rfl, by simp [exec, execInit, he, hb]⟩
    · refine .inl ⟨e, ?_, by simp [exec, execInit, he]⟩
      rintro rfl
      unfold initError at he
      repeat' split at he
      all_goals simp at he
  · rw [exec_eq_runOnBuffer hi]
    rcases he : bufferError s.ctxValid (bufLength s) with _ | e
    · obtain ⟨hc, hL⟩ := bufferError_eq_none.1 he
      exact .inr (.inl ⟨f, rfl, hc, hL, runOnBuffer_of_ok f hc hL⟩)
    · refine .inl ⟨e, ?_, by simp [runOnBuffer, he]⟩
      rintro rfl
      unfold bufferError at he
      repeat' split at he
      all_goals simp at he

/-- No command is refused. -/
theorem exec_ne_refused (i : Instr) (s : State) (r : Refusal) : exec i s ≠ .refused r := by
  rcases exec_cases i s with ⟨_, _, h⟩ | ⟨_, _, _, _, h⟩ | ⟨_, _, _, ⟨_, _, h⟩ | ⟨_, h⟩⟩ <;> simp [h]

/-! ### The bytes of the memories after a command -/

theorem byteAt_raiseError (e : ErrCode) (s : State) (b : Bank) (i : Nat) :
    byteAt (raiseError e s) b i = byteAt s b i := by cases b <;> rfl

theorem byteAt_finish (s : State) (b : Bank) (i : Nat) : byteAt (finish s) b i = byteAt s b i := by
  cases b <;> rfl

theorem byteAt_setPort (rest : List Event) (s : State) (b : Bank) (i : Nat) :
    byteAt (setPort rest s) b i = byteAt s b i := by cases b <;> rfl

theorem bufBytes_finish (s : State) : bufBytes (finish s) = bufBytes s := by
  apply List.ext_getElem
  · simp [bufLength]
  · intro i h1 h2
    simp only [bufBytes, bytesAt_getElem, byteAt_finish]

/-! ### Transactions and steps -/

theorem step_of_port {s : State} {e : Event} {rest : List Event} (h : s.port = e :: rest) :
    step s = perform e (setPort rest s) := by
  unfold step
  rw [h]

theorem step_of_idle {s : State} (h : s.port = []) : step s = .next s := by
  unfold step
  rw [h]

/-- What performing an event can end in: a refusal; a value returned; a byte of SECRET or BUF, or a length register,
written; no change; an illegal word; a command; a reset. -/
theorem perform_cases (e : Event) (s : State) :
    (∃ r, perform e s = .refused r ∧ e.wf = false) ∨
    (e.wf = true ∧
      ((∃ r, ((∃ off, e = .regRead off) ∨ ∃ a, e = .memRead a) ∧ perform e s = .next (reply r s)) ∨
       (∃ a v i, e = .memWrite a v ∧ perform e s = .next (setSecretByte i v s) ∧ i < 256) ∨
       (∃ a v i, e = .memWrite a v ∧ perform e s = .next (setBufByte i v s) ∧ i < 65536) ∨
       (∃ v, e = .regWrite 0x008 v ∧ perform e s = .next { s with secretLen := v.setWidth 16 }) ∨
       (∃ v, e = .regWrite 0x00C v ∧ perform e s = .next { s with bufLen := v.setWidth 17 }) ∨
       (((∃ off v, e = .regWrite off v ∧ off ≠ 0) ∨ ∃ a v, e = .memWrite a v) ∧ perform e s = .next s) ∨
       (∃ w why, e = .regWrite 0x000 w ∧ decode w = .illegal why ∧
          perform e s = .next (raiseError .illegalCmd s)) ∨
       (∃ w i, e = .regWrite 0x000 w ∧ decode w = .command i ∧ perform e s = exec i s) ∨
       ((e = .reset ∨ ∃ w, e = .resetDuring w) ∧ perform e s = .next (takeReset s)))) := by
  have hreg (off : Addr) : (∃ r, regRefusal off = some r ∧ regOffsetOk off = false) ∨
      (regRefusal off = none ∧ regOffsetOk off = true) := by
    unfold regRefusal regOffsetOk
    split
    · exact .inl ⟨_, rfl, by simp; omega⟩
    · split
      · exact .inl ⟨_, rfl, by simp [*]⟩
      · exact .inr ⟨rfl, by simp; omega⟩
  cases e with
  | regWrite off v =>
    rcases hreg off with ⟨r, hr, hw⟩ | ⟨hr, hw⟩
    · exact .inl ⟨r, by simp [perform, regWrite, hr], hw⟩
    · refine .inr ⟨hw, ?_⟩
      have hp : perform (.regWrite off v) s = writeReg (regOf off) v s := by simp [perform, regWrite, hr]
      rw [hp]
      unfold regOf
      by_cases h0 : off = 0x000
      · subst h0
        rcases hd : decode v with i | why
        · exact .inr <| .inr <| .inr <| .inr <| .inr <| .inr <| .inr <| .inl
            ⟨v, i, rfl, hd, by simp [writeReg, runCommand, hd]⟩
        · exact .inr <| .inr <| .inr <| .inr <| .inr <| .inr <| .inl
            ⟨v, why, rfl, hd, by simp [writeReg, runCommand, hd]⟩
      · have hno (h : writeReg (regOf off) v s = .next s) :
            ((∃ off' v', Event.regWrite off v = .regWrite off' v' ∧ off' ≠ 0) ∨
              ∃ a v', Event.regWrite off v = .memWrite a v') ∧ writeReg (regOf off) v s = .next s :=
          ⟨.inl ⟨off, v, rfl, h0⟩, h⟩
        by_cases h8 : off = 0x008
        · subst h8
          exact .inr <| .inr <| .inr <| .inl ⟨v, rfl, rfl⟩
        · by_cases hC : off = 0x00C
          · subst hC
            exact .inr <| .inr <| .inr <| .inr <| .inl ⟨v, rfl, rfl⟩
          · refine .inr <| .inr <| .inr <| .inr <| .inr <| .inl ?_
            refine hno ?_
            unfold regOf
            rw [if_neg h0, if_neg h8, if_neg hC]
            repeat' split
            all_goals rfl
  | regRead off =>
    rcases hreg off with ⟨r, hr, hw⟩ | ⟨hr, hw⟩
    · exact .inl ⟨r, by simp [perform, regRead, hr], hw⟩
    · exact .inr ⟨hw, .inl ⟨.word (regValue s (regOf off)), .inl ⟨off, rfl⟩, by simp [perform, regRead, hr]⟩⟩
  | memWrite a v =>
    by_cases ha : a.toNat ≤ 0xFF
    · have : regionOf a = .registers := by simp [regionOf, ha]
      exact .inl ⟨.byteAccessToRegisterSpace a, by simp [perform, memWrite, this], by simp [Event.wf, memAddrOk, ha]⟩
    · refine .inr ⟨by simp [Event.wf, memAddrOk]; omega, ?_⟩
      have hno (h : perform (.memWrite a v) s = .next s) :
          ((∃ off' v', Event.memWrite a v = .regWrite off' v' ∧ off' ≠ 0) ∨
            ∃ a' v', Event.memWrite a v = .memWrite a' v') ∧ perform (.memWrite a v) s = .next s :=
        ⟨.inr ⟨a, v, rfl⟩, h⟩
      have hlt := a.isLt
      rcases hr : regionOf a with _ | _ | ⟨b, i⟩
      · unfold regionOf at hr
        simp only [ha, if_false] at hr
        repeat' split at hr
        all_goals simp at hr
      · exact .inr <| .inr <| .inr <| .inr <| .inr <| .inl (hno (by simp [perform, memWrite, hr]))
      · cases b
        case secret =>
          refine .inr <| .inl ⟨a, v, i, rfl, by simp [perform, memWrite, hr], ?_⟩
          unfold regionOf at hr
          simp only [ha, if_false] at hr
          repeat' split at hr
          all_goals first | (simp at hr; done) | (simp at hr; omega)
        case buf =>
          refine .inr <| .inr <| .inl ⟨a, v, i, rfl, by simp [perform, memWrite, hr], ?_⟩
          unfold regionOf at hr
          simp only [ha, if_false] at hr
          repeat' split at hr
          all_goals first | (simp at hr; done) | (simp at hr; omega)
        all_goals exact .inr <| .inr <| .inr <| .inr <| .inr <| .inl (hno (by simp [perform, memWrite, hr]))
  | memRead a =>
    by_cases ha : a.toNat ≤ 0xFF
    · have : regionOf a = .registers := by simp [regionOf, ha]
      exact .inl ⟨.byteAccessToRegisterSpace a, by simp [perform, memRead, this], by simp [Event.wf, memAddrOk, ha]⟩
    · refine .inr ⟨by simp [Event.wf, memAddrOk]; omega, ?_⟩
      rcases hr : regionOf a with _ | _ | ⟨b, i⟩
      · unfold regionOf at hr
        simp only [ha, if_false] at hr
        repeat' split at hr
        all_goals simp at hr
      · exact .inl ⟨.byte 0, .inr ⟨a, rfl⟩, by simp [perform, memRead, hr]⟩
      · exact .inl ⟨.byte (windowByte s b i), .inr ⟨a, rfl⟩, by simp [perform, memRead, hr]⟩
  | reset => exact .inr ⟨rfl, by simp [perform]⟩
  | resetDuring w => exact .inr ⟨rfl, by simp [perform]⟩

end Sys2Proof.Machine
end

