-- ==== Sys2Proof/Laws/PerInstr.lean ====
section
/-! SUPPORT. Statements about every command, one lemma per constructor of Instr. -/

namespace Sys2Proof.Laws.Encoding

/-- The word of a command selects the row of its mnemonic in the opcode map (R83, R86). -/
def Statement (i : Instr) : Prop :=
  ∃ r ∈ opcodeMap, r.mnemonic = mnemonicOf i ∧ r.selects (encode i) = true

theorem phase_masked (p : Byte) (op : Word) (h : op &&& 0xFFFF00FF = op) :
    ((p.setWidth 32 <<< 8) ||| op) &&& 0xFFFF00FF = op := by
  rw [BitVec.and_comm, BitVec.and_or_distrib_left, BitVec.and_comm _ op, h]
  have : (0xFFFF00FF : Word) &&& (p.setWidth 32 <<< 8) = 0 := by
    revert p
    decide
  rw [this]
  exact BitVec.zero_or

theorem rounds_masked (R : BitVec 16) : ((R.setWidth 32 <<< 16) ||| 0x01) &&& 0x0000FFFF = (0x01 : Word) := by
  apply BitVec.eq_of_toNat_eq
  rw [BitVec.toNat_and, show (0x0000FFFF : Word).toNat = 2 ^ 16 - 1 from rfl, Nat.and_two_pow_sub_one_eq_mod,
    BitVec.toNat_or, Nat.or_mod_two_pow, BitVec.toNat_shiftLeft, Nat.shiftLeft_eq]
  simp

theorem init (rounds : BitVec 16) : Statement (.init rounds) :=
  ⟨_, List.mem_cons_self .., rfl, beq_iff_eq.2 (rounds_masked rounds)⟩

theorem encrypt : Statement .encrypt :=
  ⟨{ mnemonic := "ENCRYPT", value := 0x00000002, mask := 0xFFFFFFFF }, by decide, rfl, rfl⟩

theorem decrypt : Statement .decrypt :=
  ⟨{ mnemonic := "DECRYPT", value := 0x00000003, mask := 0xFFFFFFFF }, by decide, rfl, rfl⟩

theorem whiten : Statement .whiten :=
  ⟨{ mnemonic := "WHITEN", value := 0x00000010, mask := 0xFFFFFFFF }, by decide, rfl, rfl⟩

theorem subf (phase : Byte) : Statement (.subf phase) :=
  ⟨{ mnemonic := "SUBF", value := 0x00000011, mask := 0xFFFF00FF }, by decide, rfl,
    beq_iff_eq.2 (phase_masked phase 0x11 (by decide))⟩

theorem subr (phase : Byte) : Statement (.subr phase) :=
  ⟨{ mnemonic := "SUBR", value := 0x00000012, mask := 0xFFFF00FF }, by decide, rfl,
    beq_iff_eq.2 (phase_masked phase 0x12 (by decide))⟩

theorem rotf (phase : Byte) : Statement (.rotf phase) :=
  ⟨{ mnemonic := "ROTF", value := 0x00000013, mask := 0xFFFF00FF }, by decide, rfl,
    beq_iff_eq.2 (phase_masked phase 0x13 (by decide))⟩

theorem rotb (phase : Byte) : Statement (.rotb phase) :=
  ⟨{ mnemonic := "ROTB", value := 0x00000014, mask := 0xFFFF00FF }, by decide, rfl,
    beq_iff_eq.2 (phase_masked phase 0x14 (by decide))⟩

end Sys2Proof.Laws.Encoding
end

