-- ==== Sys2Proof/Laws/Port.lean ====
section
/-! SUPPORT. The laws of the address map (R51): which region an address of each window lies in, and which index of
the memory it names. -/

namespace Sys2Proof.Machine

theorem regionOf_keyWindow {i : Nat} (h : i < 1024) :
    regionOf (BitVec.ofNat 18 (0x00400 + i)) = .window .key i := by
  unfold regionOf
  rw [BitVec.toNat_ofNat, Nat.mod_eq_of_lt (by omega)]
  simp only
  rw [if_neg (by omega), if_neg (by omega), if_pos (by omega), Nat.add_sub_cancel_left]

theorem regionOf_secretWindow {i : Nat} (h : i < 256) :
    regionOf (BitVec.ofNat 18 (0x00800 + i)) = .window .secret i := by
  unfold regionOf
  rw [BitVec.toNat_ofNat, Nat.mod_eq_of_lt (by omega)]
  simp only
  rw [if_neg (by omega), if_neg (by omega), if_neg (by omega), if_pos (by omega), Nat.add_sub_cancel_left]

theorem regionOf_bufWindow {i : Nat} (h : i < 65536) :
    regionOf (BitVec.ofNat 18 (0x10000 + i)) = .window .buf i := by
  unfold regionOf
  rw [BitVec.toNat_ofNat, Nat.mod_eq_of_lt (by omega)]
  simp only
  rw [if_neg (by omega), if_neg (by omega), if_neg (by omega), if_neg (by omega), if_neg (by omega),
    if_pos (by omega), Nat.add_sub_cancel_left]

theorem regionOf_fwdWindow {p m : Nat} (hp : p < 256) (hm : m < 256) :
    regionOf (BitVec.ofNat 18 (0x20000 + 256 * p + m)) = .window .fwd (256 * p + m) := by
  unfold regionOf
  rw [BitVec.toNat_ofNat, Nat.mod_eq_of_lt (by omega)]
  simp only
  rw [if_neg (by omega), if_neg (by omega), if_neg (by omega), if_neg (by omega), if_neg (by omega),
    if_neg (by omega), if_pos (by omega), Nat.add_assoc, Nat.add_sub_cancel_left]

theorem regionOf_invWindow {p m : Nat} (hp : p < 256) (hm : m < 256) :
    regionOf (BitVec.ofNat 18 (0x30000 + 256 * p + m)) = .window .inv (256 * p + m) := by
  unfold regionOf
  rw [BitVec.toNat_ofNat, Nat.mod_eq_of_lt (by omega)]
  simp only
  rw [if_neg (by omega), if_neg (by omega), if_neg (by omega), if_neg (by omega), if_neg (by omega),
    if_neg (by omega), if_neg (by omega), Nat.add_assoc, Nat.add_sub_cancel_left]

theorem regionOf_unmapped {a : Addr}
    (h : (0x00100 ≤ a.toNat ∧ a.toNat ≤ 0x003FF) ∨ (0x00900 ≤ a.toNat ∧ a.toNat ≤ 0x0FFFF)) :
    regionOf a = .unmapped := by
  unfold regionOf
  simp only
  rcases h with h | h
  · rw [if_neg (by omega), if_pos (by omega)]
  · rw [if_neg (by omega), if_neg (by omega), if_neg (by omega), if_neg (by omega), if_pos (by omega)]

end Sys2Proof.Machine
end

