-- ==== Sys2Proof/Laws/TableBuilder.lean ====
section
/-! SUPPORT. The laws of the table builder's probe and slot step (R123, R125). -/

namespace Sys2Proof.Machine

/-- The probe from `c`: the first unused position among the `fuel` positions from `c` on, if there is one. -/
theorem probe_eq_some {used : BitVec 256} {fuel : Nat} {c v : Byte} (h : probe used fuel c = some v) :
    ∃ d, d < fuel ∧ v = c + BitVec.ofNat 8 d ∧ used.getLsbD v.toNat = false ∧
      ∀ e, e < d → used.getLsbD (c + BitVec.ofNat 8 e).toNat = true := by
  induction fuel generalizing c with
  | zero => simp [probe] at h
  | succ fuel ih =>
    unfold probe at h
    by_cases hc : used.getLsbD c.toNat = true
    · rw [if_pos hc] at h
      obtain ⟨d, hd, hv, hu, he⟩ := ih h
      refine ⟨d + 1, by omega, ?_, hu, ?_⟩
      · rw [hv, BitVec.ofNat_add, BitVec.add_assoc, BitVec.add_comm (BitVec.ofNat 8 d) _]
        rfl
      · intro e hlt
        cases e with
        | zero => simpa using hc
        | succ e =>
          have := he e (by omega)
          rw [BitVec.add_assoc, show (1 : Byte) + BitVec.ofNat 8 e = BitVec.ofNat 8 (e + 1) by
            rw [BitVec.ofNat_add, BitVec.add_comm]; rfl] at this
          exact this
    · rw [if_neg hc] at h
      obtain rfl := Option.some.inj h
      exact ⟨0, by omega, by simp, by simpa using hc, fun e he => absurd he (Nat.not_lt_zero _)⟩

/-- The probe finds nothing only where every position it looks at is used. -/
theorem probe_eq_none {used : BitVec 256} {fuel : Nat} {c : Byte} (h : probe used fuel c = none) :
    ∀ e, e < fuel → used.getLsbD (c + BitVec.ofNat 8 e).toNat = true := by
  induction fuel generalizing c with
  | zero => intro e he; exact absurd he (Nat.not_lt_zero _)
  | succ fuel ih =>
    unfold probe at h
    by_cases hc : used.getLsbD c.toNat = true
    · rw [if_pos hc] at h
      intro e he
      cases e with
      | zero => simpa using hc
      | succ e =>
        have := ih h e (by omega)
        rw [BitVec.add_assoc, show (1 : Byte) + BitVec.ofNat 8 e = BitVec.ofNat 8 (e + 1) by
          rw [BitVec.ofNat_add, BitVec.add_comm]; rfl] at this
        exact this
    · rw [if_neg hc] at h
      exact absurd h (by simp)

/-- Every byte is some position counted from `c`. -/
theorem exists_offset (c v : Byte) : ∃ d, d < 256 ∧ v = c + BitVec.ofNat 8 d := by
  refine ⟨(v - c).toNat, (v - c).isLt, ?_⟩
  rw [BitVec.ofNat_toNat, BitVec.setWidth_eq, BitVec.add_comm, BitVec.sub_add_cancel]

/-- The probe finds a position whenever one is unused. -/
theorem probe_isSome {used : BitVec 256} (c : Byte) {v : Byte} (hv : used.getLsbD v.toNat = false) :
    (probe used 256 c).isSome = true := by
  rcases h : probe used 256 c with _ | u
  · obtain ⟨d, hd, rfl⟩ := exists_offset c v
    exact absurd (probe_eq_none h d hd) (by rw [hv]; exact Bool.false_ne_true)
  · rfl

/-- Marking a position: it is used afterwards, and no other marker changes. -/
theorem getLsbD_mark (used : BitVec 256) (c v : Byte) :
    (used ||| (1#256 <<< c.toNat)).getLsbD v.toNat = (used.getLsbD v.toNat || decide (v = c)) := by
  have hc := c.isLt
  have hv := v.isLt
  rw [BitVec.getLsbD_or, BitVec.getLsbD_shiftLeft]
  congr 1
  have h1 : (1#256).getLsbD (v.toNat - c.toNat) = decide (v.toNat - c.toNat = 0) := by
    rw [BitVec.getLsbD_one]
    simp
  rw [h1]
  by_cases h : v = c
  · subst h
    simp [hv]
  · have : v.toNat ≠ c.toNat := fun e => h (BitVec.eq_of_toNat_eq e)
    simp only [h, decide_false]
    by_cases hlt : v.toNat < c.toNat
    · simp [hlt]
    · simp [show ¬ (v.toNat - c.toNat = 0) by omega]

/-- A slot step that has a result: the accumulator and the entry of R123. -/
theorem slotStep_eq_some {K : List Byte} {p m : Nat} {t u : Slots} (h : slotStep K p t m = some u) :
    ∃ c, probe t.used 256 (indexTerm p ^^^ mixfn p t.acc (K.getD t.cursor 0)) = some c ∧
      u = { acc := indexTerm p ^^^ mixfn p t.acc (K.getD t.cursor 0), cursor := (t.cursor + 1) % 1024,
            used := t.used ||| (1#256 <<< c.toNat), f := t.f ++ [c],
            inv := t.inv.set c.toNat (BitVec.ofNat 8 m) } := by
  unfold slotStep at h
  simp only at h
  split at h
  · exact absurd h (by simp)
  · rename_i c hc
    exact ⟨c, hc, (Option.some.inj h).symm⟩

/-- A slot step has a result whenever some position is unused. -/
theorem slotStep_of_unused {K : List Byte} {p m : Nat} {t : Slots} {v : Byte} (hv : t.used.getLsbD v.toNat = false) :
    ∃ u, slotStep K p t m = some u := by
  obtain ⟨c, hc⟩ := Option.isSome_iff_exists.1
    (probe_isSome (indexTerm p ^^^ mixfn p t.acc (K.getD t.cursor 0)) hv)
  unfold slotStep
  simp only [hc]
  exact ⟨_, rfl⟩

/-! ### The table builder always has a result (R125) -/

/-- A list that holds every byte has at least 256 members. -/
theorem length_of_all_bytes {f : List Byte} (h : ∀ v : Byte, v ∈ f) : 256 ≤ f.length := by
  have hn : ((List.finRange 256).map (fun i => (BitVec.ofFin i : Byte))).Nodup := by
    refine (List.nodup_finRange 256).map ?_
    intro a b hab
    simpa using hab
  have hs := hn.subperm (l₂ := f) (fun v _ => h v)
  simpa using hs.length_le

/-- After `m` slots of a phase, the entries written are `m`, and every used position is one of them (R125). -/
def SlotsOk (m : Nat) (t : Slots) : Prop :=
  t.f.length = m ∧ ∀ v : Byte, t.used.getLsbD v.toNat = true → v ∈ t.f

theorem slotStep_keeps {K : List Byte} {p m : Nat} {t : Slots} (hm : m < 256) (h : SlotsOk m t) (j : Nat) :
    ∃ u, slotStep K p t j = some u ∧ SlotsOk (m + 1) u := by
  obtain ⟨hl, hu⟩ := h
  have hex : ∃ v : Byte, t.used.getLsbD v.toNat = false := by
    by_contra hno
    have := length_of_all_bytes (f := t.f) fun v => hu v (by
      rcases hv : t.used.getLsbD v.toNat with _ | _
      · exact absurd ⟨v, hv⟩ hno
      · rfl)
    omega
  obtain ⟨v, hv⟩ := hex
  obtain ⟨u, h⟩ := slotStep_of_unused (K := K) (p := p) (m := j) hv
  obtain ⟨c, -, rfl⟩ := slotStep_eq_some h
  refine ⟨_, h, by simp [hl], fun w hw => ?_⟩
  rw [getLsbD_mark] at hw
  rw [Bool.or_eq_true] at hw
  rcases hw with hw | hw
  · exact List.mem_append_left _ (hu w hw)
  · exact List.mem_append_right _ (by simpa using hw)

theorem buildPhase_isSome (K : List Byte) (p : Nat) (acc : Byte) (cursor : Nat) :
    ∃ u, buildPhase K p acc cursor = some u := by
  have key : ∀ (l : List Nat) (m : Nat) (t : Slots), m + l.length ≤ 256 → SlotsOk m t →
      ∃ u, l.foldlM (slotStep K p) t = some u := by
    intro l
    induction l with
    | nil => intro m t _ _; exact ⟨t, rfl⟩
    | cons j l ih =>
      intro m t hl ht
      rw [List.length_cons] at hl
      obtain ⟨u, hu, hok⟩ := slotStep_keeps (K := K) (p := p) (by omega) ht j
      obtain ⟨w, hw⟩ := ih (m + 1) u (by omega) hok
      exact ⟨w, by rw [List.foldlM_cons, hu]; exact hw⟩
  exact key (List.range 256) 0 _ (by simp) ⟨rfl, fun v hv => by simp at hv⟩

/-- The table builder has a result, whatever the key material. -/
theorem buildTables_isSome (K : List Byte) : ∃ t, buildTables K = some t := by
  have key : ∀ (l : List Nat) (t : Tables), ∃ u, l.foldlM (phaseStep K) t = some u := by
    intro l
    induction l with
    | nil => intro t; exact ⟨t, rfl⟩
    | cons p l ih =>
      intro t
      obtain ⟨u, hu⟩ := buildPhase_isSome K p t.acc t.cursor
      obtain ⟨w, hw⟩ := ih { acc := u.acc, cursor := u.cursor, fwd := t.fwd ++ u.f, inv := t.inv ++ u.inv }
      refine ⟨w, ?_⟩
      rw [List.foldlM_cons, phaseStep, hu]
      exact hw
  exact key _ _

end Sys2Proof.Machine
end

