-- ==== Sys2Proof/Tests/Slice0.lean ====
section
/-! SUPPORT. Tests of the model on values that stand in spec/95_test_vectors.md (named V-…, P… there) or in a rule's
example, and, for each obligation with hypotheses, a witness that meets them. -/

namespace Sys2Proof.Tests

open Sys2Proof Sys2Proof.Machine Sys2Proof.Config

/-! ### Well-formedness: one ill-formed transaction for each check -/

/-- R52: a register offset that is no multiple of 4. -/
theorem test_wf_misaligned_register : Event.wf (.regWrite 0x002 0) = false := by decide

/-- R53: a register transaction to the memory space (the table of 2.8: `rd32` at BUF_BASE). -/
theorem test_wf_register_beyond_space : Event.wf (.regRead 0x10000) = false := by decide

/-- R52: a byte transaction to the register space. -/
theorem test_wf_byte_in_register_space :
    Event.wf (.memRead 0x000FF) = false ∧ Event.wf (.memWrite 0x000 0) = false := by decide

/-- The last register offset and the first byte address are well formed. -/
theorem test_wf_edges : Event.wf (.regRead 0x0FC) = true ∧ Event.wf (.memRead 0x00100) = true := by decide

/-! ### Decoding: words written out from R81, R83 and the tables of 2.7, P1 to P5 -/

theorem test_decode_init : decode 0x00020001 = .command (.init 2) := by decide
theorem test_decode_encrypt : decode 0x00000002 = .command .encrypt := by decide
theorem test_decode_decrypt : decode 0x00000003 = .command .decrypt := by decide
theorem test_decode_whiten : decode 0x00000010 = .command .whiten := by decide
theorem test_decode_subf : decode 0x00004111 = .command (.subf 0x41) := by decide
theorem test_decode_subr : decode 0x0000FF12 = .command (.subr 0xFF) := by decide
theorem test_decode_rotf : decode 0x0000C413 = .command (.rotf 0xC4) := by decide
theorem test_decode_rotb : decode 0x0000AD14 = .command (.rotb 0xAD) := by decide

/-- The illegal words of 2.7, and the edges of the reserved OP ranges (R84). -/
theorem test_decode_illegal :
    decode 0x00000102 = .illegal .phaseNotZero ∧ decode 0x00000101 = .illegal .phaseNotZero ∧
    decode 0x00010011 = .illegal .rndsNotZero ∧ decode 0x00000000 = .illegal .reservedOpcode ∧
    decode 0x00000004 = .illegal .reservedOpcode ∧ decode 0x0000000F = .illegal .reservedOpcode ∧
    decode 0x00000015 = .illegal .reservedOpcode ∧ decode 0x000000FF = .illegal .reservedOpcode := by decide

/-- A table word is numbered from bit 0, and a command is one 32-bit word. -/
theorem test_decodeTableWord :
    decodeTableWord 32 0x00006F14 = some (.rotb 0x6F) ∧ decodeTableWord 32 0x00000102 = none := by decide

/-- A fetched word is the very next command, and runs. -/
theorem test_withFetchWord :
    step (State.reset.withFetchWord 32 0x00000010) = .next (raiseError .notInitialized State.reset) := rfl

/-! ### A part of context abc, with the values of V-KS-1, V-TB-1, V-ROT-2 and V-ENC-1 -/

/-- `K[0..15]` and `K[512]` (V-KS-1). -/
def keyAbc : List Host.Cell :=
  Memory.ofBytes [0x41, 0xC4, 0x82, 0x84, 0xC6, 0x4D, 0x08, 0x0D, 0x41, 0xC9, 0x83, 0x8E, 0xC1, 0x48, 0x0A, 0x00]
    ++ [(512, 0xAD)]

/-- Entries of the table of one phase. -/
def entries (p : Nat) (l : List (Nat × Byte)) : List Host.Cell := l.map (fun c => (256 * p + c.1, c.2))

/-- Entries of F: phases 00 and 01 from V-TB-1 and 2.8, 41 and AD from V-ROT-2 and the trace V-ENC-1. -/
def fwdAbc : List Host.Cell :=
  Memory.ofBytes [0xBA, 0x77, 0x76, 0x73, 0x2E, 0x62, 0xDB, 0x4F, 0x8F, 0x47, 0x45, 0x38, 0xF8, 0x31, 0xA8, 0x29]
    ++ entries 0x00 [(0x7F, 0x0B), (0xFF, 0x1B)]
    ++ entries 0x01 [(0x00, 0x60), (0xFF, 0xB3)]
    ++ entries 0x41 [(0x00, 0x70), (0x01, 0x05), (0x36, 0x8C), (0x39, 0x28), (0x3B, 0x2A), (0x3E, 0x54), (0x71, 0x57),
        (0x7B, 0x06), (0x7C, 0x55), (0x7D, 0x82), (0x7F, 0x31), (0xB2, 0x04), (0xB7, 0x61), (0xBE, 0x63), (0xF2, 0xA0),
        (0xF5, 0xBA), (0xF7, 0xC8), (0xFF, 0x26)]
    ++ entries 0xAD [(0x00, 0x4B), (0x01, 0xB2), (0x7F, 0x31)]

/-- Entries of Inv: phase 00 from V-TB-1, phase 41 from the trace V-ENC-1 read backwards (R126). -/
def invAbc : List Host.Cell :=
  Memory.ofBytes [0x7B, 0xB7, 0xD1, 0x96]
    ++ entries 0x00 [(0x76, 0x02), (0x77, 0x01), (0xBA, 0x00), (0xFF, 0x67)]
    ++ entries 0x41 [(0x04, 0xB2), (0x06, 0x7B), (0x26, 0xFF), (0x28, 0x39), (0x2A, 0x3B), (0x54, 0x3E), (0x55, 0x7C),
        (0x57, 0x71), (0x61, 0xB7), (0x63, 0xBE), (0x82, 0x7D), (0x8C, 0x36), (0xA0, 0xF2), (0xBA, 0xF5), (0xC8, 0xF7)]

/-- Context abc with round count `R` and the buffer `bs`. -/
def abc (R : BitVec 11) (bs : List Byte) : State :=
  { State.reset with
    ctxValid := true, rounds := R, key := keyAbc, fwd := fwdAbc, inv := invAbc
    bufLen := BitVec.ofNat 17 bs.length, buf := Memory.ofBytes bs }

/-- The buffer that a step leaves, if it ends in a next state. -/
def bufferAfter (o : Host.Outcome State Fault Refusal) : Option (List Byte) :=
  match o with
  | .next t => some (bufBytes t)
  | .fault _ => none
  | .refused _ => none

/-- STATUS after a step, if it ends in a next state. -/
def statusAfter (o : Host.Outcome State Fault Refusal) : Option Word :=
  match o with
  | .next t => some (statusWord t)
  | .fault _ => none
  | .refused _ => none

/-- The last value returned to the host by a step. -/
def replyAfter (o : Host.Outcome State Fault Refusal) : Option Reply :=
  match o with
  | .next t => t.replies.getLast?
  | .fault _ => none
  | .refused _ => none

/-- The bytes `00 01 .. 0F`. -/
def ramp (n : Nat) : List Byte := (List.range n).map (BitVec.ofNat 8)

/-- A state whose next transaction is `e`. -/
def issue (e : Event) (s : State) : State := { s with port := [e] }

/-! ### INIT and its units -/

/-- 2.7 and R203: INIT 1025 with SECRET_LEN = 0, 3 and 257, with no context. -/
theorem test_init_errors :
    statusAfter (exec (.init 1025) State.reset) = some 0x00000010 ∧
    statusAfter (exec (.init 1025) { State.reset with secretLen := 3 }) = some 0x00000040 ∧
    statusAfter (exec (.init 2) { State.reset with secretLen := 257 }) = some 0x00000050 := by decide +kernel

/-- V-KS-1 and V-KS-3: the secrets "abc", FF and 00 01 .. FF. -/
theorem test_keySchedule :
    (keySchedule [0x61, 0x62, 0x63]).take 8 = [0x41, 0xC4, 0x82, 0x84, 0xC6, 0x4D, 0x08, 0x0D] ∧
    ((keySchedule [0x61, 0x62, 0x63]).drop 1016) = [0x30, 0x0D, 0xB0, 0x88, 0x34, 0xF6, 0x77, 0xB8] ∧
    (keySchedule [0xFF]).take 8 = [0x7D, 0x83, 0xF8, 0x04, 0x7D, 0x87, 0xF0, 0x08] ∧
    (keySchedule (ramp 256)).drop 1020 = [0x82, 0x7C, 0x03, 0xFF] := by decide +kernel

/-- V-TB-1 and V-TB-2: table 0 of context abc up to its first probe, at slot 24, from the seed 7A. -/
theorem test_tableBuilder :
    ((List.range 25).foldlM (slotStep (keySchedule [0x61, 0x62, 0x63]) 0)
        { acc := 0x7A, cursor := 0, used := 0, f := [], inv := List.replicate 256 0 }).map
      (fun t => (t.f, t.inv.getD 0xC7 0)) =
    some ([0xBA, 0x77, 0x76, 0x73, 0x2E, 0x62, 0xDB, 0x4F, 0x8F, 0x47, 0x45, 0x38, 0xF8, 0x31, 0xA8, 0x29,
           0x3C, 0x1C, 0xED, 0x0D, 0x85, 0xE9, 0x1F, 0xC6, 0xC7], 0x18) := by decide +kernel

/-! ### The commands over the buffer -/

/-- 2.3. -/
theorem test_whiten :
    bufferAfter (exec .whiten (abc 2 (ramp 16))) = some
      [0xBE, 0x3A, 0x7F, 0x78, 0x3D, 0xB7, 0xF1, 0xF5, 0xB6, 0x3F, 0x76, 0x7A, 0x32, 0xBA, 0xFB, 0xF0] := by
  decide +kernel

/-- 2.4. -/
theorem test_subf : bufferAfter (exec (.subf 0x00) (abc 2 [0x00, 0x01, 0x02, 0xFF])) =
    some [0xBA, 0x77, 0x76, 0x1B] := by decide +kernel

/-- 2.4. -/
theorem test_subr :
    bufferAfter (exec (.subr 0x00) (abc 2 [0x00, 0x01, 0x02, 0xFF])) = some [0x7B, 0xB7, 0xD1, 0x67] ∧
    bufferAfter (exec (.subr 0x00) (abc 2 [0xBA, 0x77, 0x76, 0xFF])) = some [0x00, 0x01, 0x02, 0x67] := by
  decide +kernel

/-- V-ROT-3, L = 7, 8, 9 and 16. -/
theorem test_rotf :
    bufferAfter (exec (.rotf 0x00) (abc 2 (ramp 7))) = some (ramp 7) ∧
    bufferAfter (exec (.rotf 0x00) (abc 2 (ramp 8))) = some [0x04, 0x08, 0x0C, 0x10, 0x14, 0x18, 0x1C, 0x00] ∧
    bufferAfter (exec (.rotf 0x00) (abc 2 (ramp 9))) = some
      [0x04, 0x06, 0x08, 0x0A, 0x0C, 0x0E, 0x00, 0x02, 0x08] ∧
    bufferAfter (exec (.rotf 0x00) (abc 2 (ramp 16))) = some
      [0x04, 0x08, 0x0C, 0x50, 0x60, 0x70, 0x10, 0x12, 0x14, 0x16, 0x40, 0x86, 0x06, 0x07, 0x00, 0x0F] := by
  decide +kernel

/-- V-ROT-6: the byte order BE. -/
theorem test_rotf_be :
    bufferAfter (exec (.rotf 0x00) { abc 2 (ramp 8) with params := { byteOrder := .be, rotIndex := .tableWrap } }) =
      some [0x1C, 0x00, 0x04, 0x08, 0x0C, 0x10, 0x14, 0x18] := by decide +kernel

/-- V-ROT-3 and V-ROT-5: the mirror order of conflict C1. -/
theorem test_rotb :
    bufferAfter (exec (.rotb 0x00) (abc 2 (ramp 16))) = some
      [0x07, 0x40, 0x80, 0x80, 0x30, 0x40, 0x50, 0x20, 0x82, 0x03, 0x84, 0x04, 0x17, 0x18, 0x1A, 0x0F] ∧
    bufferAfter (exec (.rotb 0x00) (abc 2
      [0x04, 0x08, 0x0C, 0x50, 0x60, 0x70, 0x10, 0x12, 0x14, 0x16, 0x40, 0x86, 0x06, 0x07, 0x00, 0x0F])) =
      some (ramp 16) := by decide +kernel

/-- V-ROT-1. -/
theorem test_rotations :
    rol64 0x0706050403020100 1 = 0x0E0C0A0806040200 ∧ rol64 0x0706050403020100 63 = 0x0383028201810080 ∧
    ror64 0x0706050403020100 1 = 0x0383028201810080 ∧ rol64 0x0706050403020100 0 = 0x0706050403020100 := by
  decide +kernel

/-- V-ROT-7: the amount for the table index 256. -/
theorem test_rotation_index :
    rotAmount (abc 2 []) 0 256 = 58 ∧
    rotAmount { abc 2 [] with params := { byteOrder := .le, rotIndex := .flatForward } } 0 256 = 32 := by
  decide +kernel

/-- V-ENC-2: R = 1, and R = 0 (whitening only). -/
theorem test_encrypt :
    bufferAfter (exec .encrypt (abc 1 (List.replicate 16 0))) = some
      [0x6E, 0x6B, 0x95, 0x4B, 0xD2, 0xFB, 0x8C, 0xC7, 0xAE, 0xFC, 0xA9, 0x6E, 0xF3, 0x26, 0x6D, 0xD9] ∧
    bufferAfter (exec .encrypt (abc 0 (List.replicate 16 0))) = some
      [0xBE, 0x3B, 0x7D, 0x7B, 0x39, 0xB2, 0xF7, 0xF2, 0xBE, 0x36, 0x7C, 0x71, 0x3E, 0xB7, 0xF5, 0xFF] := by
  decide +kernel

/-- V-ENC-2, R = 1, undone. -/
theorem test_decrypt :
    bufferAfter (exec .decrypt (abc 1
      [0x6E, 0x6B, 0x95, 0x4B, 0xD2, 0xFB, 0x8C, 0xC7, 0xAE, 0xFC, 0xA9, 0x6E, 0xF3, 0x26, 0x6D, 0xD9])) =
      some (List.replicate 16 0) := by decide +kernel

/-- R205 and 2.7: each command over the buffer after reset. -/
theorem test_not_initialized :
    [Instr.encrypt, .decrypt, .whiten, .subf 0, .subr 0, .rotf 0, .rotb 0].all
      (fun i => decide (statusAfter (exec i State.reset) = some 0x00000020)) = true := by decide +kernel

/-- 2.7: ENCRYPT with BUF_LEN = 65537 and a context; R203: NOT_INITIALIZED comes first without one. -/
theorem test_len_range :
    statusAfter (exec .encrypt { abc 2 [] with bufLen := 65537 }) = some 0x00000051 ∧
    statusAfter (exec .encrypt { State.reset with bufLen := 70000 }) = some 0x00000020 := by decide +kernel

/-! ### The host port (2.7, 2.8) -/

theorem test_port_illegal_word :
    statusAfter (step (issue (.regWrite 0x000 0x00000102) (abc 2 []))) = some 0x00000031 := by decide +kernel

theorem test_port_registers :
    replyAfter (step (issue (.regRead 0x004) (abc 2 []))) = some (.word 0x00000001) ∧
    replyAfter (step (issue (.regRead 0x010) (abc 2 []))) = some (.word 0x00000002) ∧
    replyAfter (step (issue (.regRead 0x000) (abc 2 []))) = some (.word 0x00000000) ∧
    replyAfter (step (issue (.regRead 0x014) (abc 2 []))) = some (.word 0x00000000) := by decide +kernel

theorem test_port_lengths :
    step (issue (.regWrite 0x00C 0xFFFFFFFF) State.reset) = .next { State.reset with bufLen := 0x1FFFF } ∧
    step (issue (.regWrite 0x008 0xFFFFFFFF) State.reset) = .next { State.reset with secretLen := 0xFFFF } ∧
    replyAfter (step (issue (.regRead 0x00C) { State.reset with bufLen := 0x1FFFF })) = some (.word 0x0001FFFF) :=
  ⟨rfl, rfl, by decide +kernel⟩

theorem test_port_windows :
    replyAfter (step (issue (.memRead 0x00400) State.reset)) = some (.byte 0x00) ∧
    replyAfter (step (issue (.memRead 0x00400) (abc 2 []))) = some (.byte 0x41) ∧
    replyAfter (step (issue (.memRead 0x201FF) (abc 2 []))) = some (.byte 0xB3) ∧
    replyAfter (step (issue (.memRead 0x300FF) (abc 2 []))) = some (.byte 0x67) ∧
    replyAfter (step (issue (.memRead 0x00100) (abc 2 []))) = some (.byte 0x00) := by decide +kernel

theorem test_port_refused :
    step (issue (.memRead 0x00010) State.reset) = .refused (.byteAccessToRegisterSpace 0x00010) ∧
    step (issue (.regRead 0x10000) State.reset) = .refused (.registerAccessToMemorySpace 0x10000) ∧
    step (issue (.regWrite 0x002 0) State.reset) = .refused (.misalignedRegisterAccess 0x002) := ⟨rfl, rfl, rfl⟩

/-- A program of R86 as transactions: the secret of P1. -/
theorem test_assemble :
    assemble [.wrbytes secretBase [0x61, 0x62, 0x63], .wr32 offSecretLen 3, .command (.init 2), .rdbytes keyBase 2] =
      [.memWrite 0x00800 0x61, .memWrite 0x00801 0x62, .memWrite 0x00802 0x63, .regWrite 0x008 3,
       .regWrite 0x000 0x00020001, .memRead 0x00400, .memRead 0x00401] := by decide +kernel

/-! ### Witnesses: for each obligation with hypotheses, states and operands that meet all of them, clause by clause -/

/-- The table memory whose 256 tables are the identity. -/
@[irreducible] def identityTables : List Byte := (List.range 65536).map (BitVec.ofNat 8)

theorem identityTables_getElem? (p m : Byte) : identityTables[256 * p.toNat + m.toNat]? = some m := by
  have hp := p.isLt
  have hm := m.isLt
  unfold identityTables
  rw [List.getElem?_map, List.getElem?_range (by omega), Option.map_some, Option.some_inj]
  apply BitVec.eq_of_toNat_eq
  rw [BitVec.toNat_ofNat]
  omega

/-- A context with these tables, and the round count 1024. -/
def identityContext (L : BitVec 17) : State :=
  { State.reset with
    ctxValid := true, rounds := 1024, bufLen := L
    fwd := Memory.ofBytes identityTables, inv := Memory.ofBytes identityTables }

theorem identityContext_ctxValid (L : BitVec 17) : (identityContext L).ctxValid = true := rfl

theorem identityContext_bufLength (L : BitVec 17) : bufLength (identityContext L) = L.toNat := rfl

theorem identityContext_fwd (L : BitVec 17) (p m : Byte) : fwdByte (identityContext L) p.toNat m.toNat = m := by
  unfold fwdByte byteAt
  rw [show bankOf (identityContext L) .fwd = Memory.ofBytes identityTables from rfl, Memory.read_ofBytes,
    identityTables_getElem?, Option.getD_some]

theorem identityContext_inv (L : BitVec 17) (p m : Byte) : invByte (identityContext L) p.toNat m.toNat = m := by
  unfold invByte byteAt
  rw [show bankOf (identityContext L) .inv = Memory.ofBytes identityTables from rfl, Memory.read_ofBytes,
    identityTables_getElem?, Option.getD_some]

theorem forall_mem_of_all {α : Type} {p : α → Prop} [DecidablePred p] {l : List α}
    (h : (l.all fun a => decide (p a)) = true) : ∀ a ∈ l, p a := by
  simpa using h

/-- A command over the buffer completes where a context is loaded and the length is legal. -/
theorem completes {i : Instr} {s : State} {f : List Byte → List Byte} (hf : bufferPass s i = some f)
    (hc : s.ctxValid = true) (hL : bufLength s ≤ 65536) : ∃ t, exec i s = .next t :=
  ⟨_, (exec_eq_runOnBuffer hf).trans (runOnBuffer_of_ok f hc hL)⟩

/-- INIT completes where none of its checks fails. -/
theorem init_completes {R : BitVec 16} {s : State} (h : initError (secretLength s) R.toNat = none) :
    ∃ t, exec (.init R) s = .next t ∧ t.err = .ok ∧ t.ctxValid = true := by
  obtain ⟨t, ht⟩ := buildTables_isSome (keySchedule (secretBytes s))
  exact ⟨finish (loadContext (keySchedule (secretBytes s)) t.fwd t.inv (R.setWidth 11) s),
    by simp only [exec, execInit, h, ht], rfl, rfl⟩

theorem step_issue_command {w : Word} {i : Instr} (h : decode w = .command i) (s : State) :
    step (issue (.regWrite 0x000 w) s) = exec i (setPort [] (issue (.regWrite 0x000 w) s)) := by
  rw [step_of_port (e := .regWrite 0x000 w) (rest := []) rfl]
  show runCommand w _ = _
  unfold runCommand
  rw [h]

/-- A context with mutually inverse tables and the largest legal length: for SubstitutionInverse and
DecryptUndoesEncrypt. -/
theorem witness_context_with_tables :
    (identityContext 65536).ctxValid = true ∧ bufLength (identityContext 65536) ≤ 65536 ∧
    TablesOk (identityContext 65536) :=
  ⟨identityContext_ctxValid _, by rw [identityContext_bufLength]; decide,
    fun p m => by simp only [identityContext_fwd, identityContext_inv, and_self]⟩

/-- For WhitenResult, WhitenTwiceRestores, SubstitutionResult, RotationForwardResult, RotationBackwardResult,
RotationsUndoEachOther, EncryptResult, DecryptResult and the two statements about the primitives: a context, with the
lengths 0 and 65536. -/
theorem witness_context :
    ((abc 2 []).ctxValid = true ∧ bufLength (abc 2 []) ≤ 65536) ∧
    ((identityContext 65536).ctxValid = true ∧ bufLength (identityContext 65536) ≤ 65536) :=
  ⟨⟨rfl, by decide⟩, identityContext_ctxValid _, by rw [identityContext_bufLength]; decide⟩

/-- For DecodeFollowsOpcodeMap: a word that selects a row and decodes to its command, and an illegal word. -/
theorem witness_DecodeFollowsOpcodeMap :
    ({ mnemonic := "ROTF", value := 0x00000013, mask := 0xFFFF00FF } : OpRow) ∈ opcodeMap ∧
    ({ mnemonic := "ROTF", value := 0x00000013, mask := 0xFFFF00FF } : OpRow).selects 0x0000FF13 = true ∧
    decode 0x0000FF13 = .command (.rotf 0xFF) ∧ decode 0x00000015 = .illegal .reservedOpcode ∧
    ∀ r ∈ opcodeMap, r.selects 0x00000015 = false := by decide

theorem witness_OperandFieldsOfWord :
    decode 0x0000FF11 = .command (.subf 0xFF) ∧ decode 0x00000012 = .command (.subr 0x00) ∧
    decode 0x0000FF13 = .command (.rotf 0xFF) ∧ decode 0x00000014 = .command (.rotb 0x00) ∧
    decode 0xFFFF0001 = .command (.init 0xFFFF) := by decide

/-- For IllegalWordRaisesIllegalCmd and the first clause of ErrorPriority: the three kinds of illegal word, at the port
of a state; and a legal word. -/
theorem witness_IllegalWordRaisesIllegalCmd :
    (issue (.regWrite 0x000 0x00000100) State.reset).port = .regWrite 0x000 0x00000100 :: [] ∧
    (0x00000100 : Word).toNat % 2 ^ 8 ∉ [0x01, 0x02, 0x03, 0x10, 0x11, 0x12, 0x13, 0x14] ∧
    ((0x0000FF01 : Word).toNat % 2 ^ 8 ∈ [0x01, 0x02, 0x03, 0x10] ∧ (0x0000FF01 : Word).toNat / 2 ^ 8 % 2 ^ 8 ≠ 0) ∧
    ((0x80000014 : Word).toNat % 2 ^ 8 ∈ [0x02, 0x03, 0x10, 0x11, 0x12, 0x13, 0x14] ∧
      (0x80000014 : Word).toNat / 2 ^ 16 ≠ 0) ∧
    (∀ i, decode 0x00000100 ≠ .command i) ∧ decode 0x0000FF14 = .command (.rotb 0xFF) :=
  ⟨rfl, by decide, by decide, by decide, fun i => by rw [show decode 0x00000100 = .illegal .reservedOpcode by decide]; simp,
    by decide⟩

theorem witness_StepRunsDecodedCommand :
    (issue (.regWrite 0x000 0x0000AD14) (abc 2 [])).port = .regWrite 0x000 0x0000AD14 :: [] ∧
    decode 0x0000AD14 = .command (.rotb 0xAD) := ⟨rfl, by decide⟩

theorem witness_StepPerformsOldestTransaction :
    State.reset.port = [] ∧
    (issue (.regRead 0x004) State.reset).port = .regRead 0x004 :: [] ∧
    ∃ t, step (issue (.regRead 0x004) State.reset) = .next t := ⟨rfl, rfl, _, rfl⟩

theorem witness_AssembledCommandRuns :
    (issue (.regWrite 0x000 0x00004113) State.reset).port = (HostStatement.command (.rotf 0x41)).expand ++ [] := by
  decide

/-- The shortest and the longest legal secret. -/
theorem witness_KeyScheduleRecurrence : 1 ≤ ([0x00] : List Byte).length ∧ 1 ≤ (ramp 256).length := by simp [ramp]

theorem witness_TableBuilderRecurrence : (List.replicate 1024 (0x41 : Byte)).length = 1024 :=
  List.length_replicate

/-- The shortest and the longest legal secret, the smallest and the largest legal round count. -/
theorem witness_InitBuildsContext :
    (1 ≤ secretLength { State.reset with secretLen := 1 } ∧ secretLength { State.reset with secretLen := 1 } ≤ 256 ∧
      (0 : BitVec 16).toNat ≤ 1024) ∧
    (1 ≤ secretLength { State.reset with secretLen := 256 } ∧
      secretLength { State.reset with secretLen := 256 } ≤ 256 ∧ (1024 : BitVec 16).toNat ≤ 1024) := by decide

/-- Two states with the same secret of length 1 that differ in `SECRET[1]`. -/
theorem witness_InitReadsOnlyTheSecret :
    let s : State := { State.reset with secretLen := 1, secret := [(0, 0x61), (1, 0x62)] }
    let s' : State := { State.reset with secretLen := 1, secret := [(0, 0x61), (1, 0x63)] }
    s ≠ s' ∧ s'.secretLen = s.secretLen ∧ ∀ i, i < secretLength s → byteAt s' .secret i = byteAt s .secret i := by
  refine ⟨fun h => ?_, rfl, fun i hi => ?_⟩
  · have := congrArg (fun s => byteAt s .secret 1) h
    revert this
    decide
  · obtain rfl : i = 0 := Nat.lt_one_iff.1 hi
    rfl

/-- Each clause of ErrorPriority after the first, at its boundary. -/
theorem witness_ErrorPriority :
    secretLength State.reset = 0 ∧ 256 < secretLength { State.reset with secretLen := 257 } ∧
    (1 ≤ secretLength { State.reset with secretLen := 256 } ∧
      secretLength { State.reset with secretLen := 256 } ≤ 256 ∧ 1024 < (1025 : BitVec 16).toNat) ∧
    (∀ R, Instr.rotb 0x00 ≠ .init R) ∧ State.reset.ctxValid = false ∧
    (identityContext 65537).ctxValid = true ∧ 65536 < bufLength (identityContext 65537) :=
  ⟨rfl, by decide, by decide, by simp, rfl, identityContext_ctxValid _, by rw [identityContext_bufLength]; decide⟩

theorem witness_FailedCommandChangesOnlyErr :
    (∃ t, exec .encrypt State.reset = .next t ∧ t.err ≠ .ok) ∧
    (issue (.regWrite 0x000 0x00000000) State.reset).port = .regWrite 0x000 0x00000000 :: [] ∧
    ∃ t, step (issue (.regWrite 0x000 0x00000000) State.reset) = .next t ∧ t.err ≠ .ok :=
  ⟨⟨_, rfl, by decide⟩, rfl, _, rfl, by decide⟩

theorem witness_RotationArithmetic : 0 ≤ 63 ∧ 63 ≤ 63 := by decide

/-- The one window of an 8-byte buffer, and a byte on either side of the window at 1 of a 10-byte buffer. -/
theorem witness_WindowByteOrder :
    0 + 8 ≤ (ramp 8).length ∧ 1 + 8 ≤ (ramp 10).length ∧ 7 < 8 ∧ (0 < 1 ∨ 1 + 8 ≤ 0) ∧ (9 < 1 ∨ 1 + 8 ≤ 9) := by decide

/-- Both values of the parameter, with the indexes on either side of 256. -/
theorem witness_RotationAmounts :
    255 < 256 ∧ 256 ≤ 256 ∧ (abc 2 []).params.rotIndex = .tableWrap ∧
    ({ abc 2 [] with params := { byteOrder := .le, rotIndex := .flatForward } } : State).params.rotIndex =
      .flatForward := by decide

theorem witness_OperationList : 7 < 8 ∧ 8 = 8 ∧ 9 ≤ 9 ∧ 9 ≤ 65536 := by decide

theorem witness_WindowsStayInsideBuffer :
    8 ≤ 8 ∧ (0, 58) ∈ opList (abc 2 (ramp 8)) 0x00 8 ∧ 9 ≤ 16 ∧ (7, 55) ∈ opList (abc 2 (ramp 16)) 0x00 16 ∧
    9 ≤ bufLength (abc 2 (ramp 9)) ∧
    (∃ t, exec (.rotf 0x00) (abc 2 (ramp 9)) = .next t) ∧ ∃ t, exec (.rotb 0x00) (abc 2 (ramp 9)) = .next t :=
  ⟨by decide, by decide +kernel, by decide, by decide +kernel, by decide,
    completes (i := .rotf 0x00) rfl rfl (by decide), completes (i := .rotb 0x00) rfl rfl (by decide)⟩

theorem witness_InteriorWindowsDisjoint : 7 ≤ 7 ∧ 7 ∈ interiorOffsets 7 8 ∧ 7 < 8 ∧ 0 ≤ 7 ∧ interiorOffsets 0 0 = [] := by
  decide

theorem witness_DegenerateLengthsAndRounds :
    (abc 0 []).rounds = 0 ∧ (abc 2 (ramp 7)).ctxValid = true ∧ bufLength (abc 2 (ramp 7)) < 8 ∧
    (abc 2 []).ctxValid = true ∧ bufLength (abc 2 []) = 0 ∧ ∀ R, Instr.decrypt ≠ .init R :=
  ⟨rfl, rfl, by decide, rfl, rfl, by simp⟩

/-- Every register, and the first and the last reserved offset. -/
theorem witness_RegisterReads :
    ∀ off ∈ ([0x000, 0x004, 0x008, 0x00C, 0x010, 0x014, 0x0FC] : List Addr),
      (issue (.regRead off) State.reset).port = .regRead off :: [] ∧ off.toNat ≤ 0xFF ∧ off.toNat % 4 = 0 :=
  forall_mem_of_all (by decide +kernel)

theorem witness_ReadOnlyRegistersIgnoreWrites :
    ∀ off ∈ ([0x004, 0x010, 0x0FC] : List Addr),
      (issue (.regWrite off 0xFFFFFFFF) State.reset).port = .regWrite off 0xFFFFFFFF :: [] ∧ off.toNat ≤ 0xFF ∧
        off.toNat % 4 = 0 ∧ (off = 0x004 ∨ 0x010 ≤ off.toNat) :=
  forall_mem_of_all (by decide +kernel)

theorem witness_LengthRegistersStoreTheirField :
    (issue (.regWrite 0x008 0xFFFFFFFF) State.reset).port = .regWrite 0x008 0xFFFFFFFF :: [] ∧
    (issue (.regWrite 0x00C 0xFFFFFFFF) State.reset).port = .regWrite 0x00C 0xFFFFFFFF :: [] := ⟨rfl, rfl⟩

/-- The first and the last byte of both windows, read and written. -/
theorem witness_SecretAndBufWindows :
    (255 < 256 ∧ (issue (.memRead 0x008FF) State.reset).port = .memRead (BitVec.ofNat 18 (0x00800 + 255)) :: []) ∧
    (0 < 256 ∧ (issue (.memWrite 0x00800 0x61) State.reset).port = .memWrite (BitVec.ofNat 18 (0x00800 + 0)) 0x61 :: []) ∧
    (65535 < 65536 ∧
      (issue (.memRead 0x1FFFF) State.reset).port = .memRead (BitVec.ofNat 18 (0x10000 + 65535)) :: []) ∧
    (0 < 65536 ∧
      (issue (.memWrite 0x10000 0x61) State.reset).port = .memWrite (BitVec.ofNat 18 (0x10000 + 0)) 0x61 :: []) :=
  ⟨⟨by decide, rfl⟩, ⟨by decide, rfl⟩, ⟨by decide, rfl⟩, by decide, rfl⟩

/-- The first and the last byte of the three windows, read and written. -/
theorem witness_ContextWindowsMaskedAndReadOnly :
    (1023 < 1024 ∧ (issue (.memRead 0x007FF) State.reset).port = .memRead (BitVec.ofNat 18 (0x00400 + 1023)) :: []) ∧
    (0 < 1024 ∧ (issue (.memWrite 0x00400 0) (abc 2 [])).port = .memWrite (BitVec.ofNat 18 (0x00400 + 0)) 0 :: []) ∧
    (255 < 256 ∧
      (issue (.memRead 0x2FFFF) (abc 2 [])).port = .memRead (BitVec.ofNat 18 (0x20000 + 256 * 255 + 255)) :: [] ∧
      (issue (.memRead 0x3FFFF) (abc 2 [])).port = .memRead (BitVec.ofNat 18 (0x30000 + 256 * 255 + 255)) :: []) ∧
    (0 < 256 ∧
      (issue (.memWrite 0x20000 1) (abc 2 [])).port = .memWrite (BitVec.ofNat 18 (0x20000 + 256 * 0 + 0)) 1 :: [] ∧
      (issue (.memWrite 0x30000 1) (abc 2 [])).port = .memWrite (BitVec.ofNat 18 (0x30000 + 256 * 0 + 0)) 1 :: []) :=
  ⟨⟨by decide, rfl⟩, ⟨by decide, rfl⟩, ⟨by decide, rfl, rfl⟩, by decide, rfl, rfl⟩

theorem witness_UnmappedReadsZero :
    ∀ a ∈ ([0x00100, 0x003FF, 0x00900, 0x0FFFF] : List Addr),
      ((0x00100 ≤ a.toNat ∧ a.toNat ≤ 0x003FF) ∨ (0x00900 ≤ a.toNat ∧ a.toNat ≤ 0x0FFFF)) ∧
      (issue (.memRead a) State.reset).port = .memRead a :: [] ∧
      (issue (.memWrite a 0xFF) State.reset).port = .memWrite a 0xFF :: [] :=
  forall_mem_of_all (by decide +kernel)

/-- Transactions on both sides of the register space's edge. -/
theorem witness_MisformedTransactionsRefused :
    (issue (.regRead 0x00100) State.reset).port = .regRead 0x00100 :: [] ∧ 0xFF < (0x00100 : Addr).toNat ∧
    (issue (.regWrite 0x0FF 0) State.reset).port = .regWrite 0x0FF 0 :: [] ∧ (0x0FF : Addr).toNat % 4 ≠ 0 ∧
    (issue (.memRead 0x000FF) State.reset).port = .memRead 0x000FF :: [] ∧ (0x000FF : Addr).toNat ≤ 0xFF :=
  ⟨rfl, by decide, rfl, by decide, rfl, by decide⟩

theorem witness_ReadsAreIdempotent :
    let s : State := { abc 2 [] with port := [.memRead 0x00400, .memRead 0x00400] }
    s.port = .memRead 0x00400 :: .memRead 0x00400 :: [] ∧
    ((∃ off, Event.memRead 0x00400 = .regRead off) ∨ ∃ a, Event.memRead 0x00400 = .memRead a) ∧
    ∃ t, step s = .next t := ⟨rfl, .inr ⟨_, rfl⟩, _, rfl⟩

/-- A reset between commands, and one that abandons an ENCRYPT. -/
theorem witness_ResetEvent :
    (issue .reset (abc 2 [])).port = .reset :: [] ∧
    (issue (.resetDuring 0x00000002) (abc 2 [])).port = .resetDuring 0x00000002 :: [] := ⟨rfl, rfl⟩

theorem witness_ResetStateValues : ∀ R, Instr.whiten ≠ .init R := by simp

/-- An INIT of the secret "a" that completes: for OnlyInitSetsCtxValid's clauses about INIT. -/
theorem witness_OnlyInitSetsCtxValid_init :
    let s : State := issue (.regWrite 0x000 0x04000001) { State.reset with secretLen := 1, secret := [(0, 0x61)] }
    ∃ t, step s = .next t ∧ s.port = .regWrite 0x000 0x04000001 :: [] ∧
      decode 0x04000001 = .command (.init 1024) ∧ t.err = .ok ∧ t.ctxValid = true := by
  obtain ⟨t, ht, he, hc⟩ := init_completes (R := 1024) (s := setPort [] (issue (.regWrite 0x000 0x04000001)
    { State.reset with secretLen := 1, secret := [(0, 0x61)] })) (by decide)
  exact ⟨t, (step_issue_command (by decide) _).trans ht, rfl, by decide, he, hc⟩

/-- A context that a reset takes away: for OnlyInitSetsCtxValid's last clause. -/
theorem witness_OnlyInitSetsCtxValid_reset :
    ∃ t, step (issue .reset (abc 2 [])) = .next t ∧ (issue .reset (abc 2 [])).ctxValid = true ∧ t.ctxValid = false :=
  ⟨_, rfl, rfl, rfl⟩

/-- Each clause of ErrReportsLastCommand: a command, a reset, a read. -/
theorem witness_ErrReportsLastCommand :
    (∃ t, step (issue (.regWrite 0x000 0x00000010) State.reset) = .next t ∧ t.err = .notInitialized) ∧
    (∃ t, step (issue (.resetDuring 0x00000010) State.reset) = .next t) ∧
    (∃ t, step (issue (.regRead 0x004) State.reset) = .next t ∧ (∀ w, Event.regRead 0x004 ≠ .regWrite 0x000 w) ∧
      Event.regRead 0x004 ≠ .reset ∧ ∀ w, Event.regRead 0x004 ≠ .resetDuring w) :=
  ⟨⟨_, rfl, rfl⟩, ⟨_, rfl⟩, _, rfl, by simp, by simp, by simp⟩

/-- An ENCRYPT between two INITs. -/
theorem witness_ContextFixedBetweenInits :
    let s := issue (.regWrite 0x000 0x00000002) (abc 2 [])
    ∃ t, step s = .next t ∧
      (∀ w R rest, s.port = .regWrite 0x000 w :: rest → decode w = .command (.init R) → t.err ≠ .ok) ∧
      (∀ rest, s.port ≠ .reset :: rest) ∧ ∀ w rest, s.port ≠ .resetDuring w :: rest := by
  obtain ⟨t, ht⟩ := completes (i := .encrypt) (s := setPort [] (issue (.regWrite 0x000 0x00000002) (abc 2 []))) rfl rfl
    (by decide)
  refine ⟨t, (step_issue_command (by decide) _).trans ht, ?_, ?_, ?_⟩
  · intro w R rest h hd
    have hw : (0x00000002 : Word) = w := by
      have := congrArg List.head? h
      simpa [issue] using this
    subst hw
    rw [show decode 0x00000002 = .command .encrypt by decide] at hd
    simp at hd
  · intro rest h
    simp [issue] at h
  · intro w rest h
    simp [issue] at h

/-- A command that completes, and its two clauses: a byte at or above BUF_LEN, and an INIT that reports its error. -/
theorem witness_CommandFrame :
    (∃ t, exec (.subf 0x00) (abc 2 [0x00]) = .next t) ∧ bufLength (abc 2 [0x00]) ≤ 1 ∧
    ∃ t, exec (.init 2) State.reset = .next t :=
  ⟨completes (i := .subf 0x00) rfl rfl (by decide), by decide, _, rfl⟩

/-- Two states that differ in `BUF[1]`, in SECRET and in the sequencer registers. -/
theorem witness_BufferCommandsReadOnlyTheirOperands :
    let s := abc 2 [0x00]
    let s' : State := { s with buf := [(0, 0x00), (1, 0xFF)], secret := [(0, 0x61)], seq := freeSequencers 7 }
    (∀ R, Instr.encrypt ≠ .init R) ∧ RoundsOk s ∧ s ≠ s' ∧
    s'.params = s.params ∧ s'.ctxValid = s.ctxValid ∧ s'.bufLen = s.bufLen ∧ s'.rounds = s.rounds ∧
    (∀ j, j < bufLength s → byteAt s' .buf j = byteAt s .buf j) ∧
    (∀ j, j < 1024 → byteAt s' .key j = byteAt s .key j) ∧
    (∀ j, j < 65536 → byteAt s' .fwd j = byteAt s .fwd j) ∧
    (∀ j, j < 65536 → byteAt s' .inv j = byteAt s .inv j) ∧ ∃ t, exec .encrypt s = .next t := by
  refine ⟨by simp, by unfold RoundsOk; decide, fun h => ?_, rfl, rfl, rfl, rfl, fun j hj => ?_, fun _ _ => rfl, fun _ _ => rfl,
    fun _ _ => rfl, completes (i := .encrypt) rfl rfl (by decide)⟩
  · have := congrArg State.secret h
    revert this
    decide
  · obtain rfl : j = 0 := Nat.lt_one_iff.1 hj
    rfl

theorem witness_SequencersNeverObserved :
    (∃ t, step (issue .reset (abc 2 [])) = .next t) ∧
    ∃ r, step (issue (.memRead 0x00000) (abc 2 [])) = .refused r := ⟨⟨_, rfl⟩, _, rfl⟩

/-- A state with the invariant, and a step from it. -/
theorem witness_StepKeepsInvariant :
    let s := issue (.memWrite 0x1FFFF 0x5A) State.reset
    StateInv s ∧ ∃ t, step s = .next t :=
  ⟨⟨fun b => by cases b <;> exact ⟨List.Pairwise.nil, by simp [bankOf, issue, State.reset]⟩,
      by show (0 : BitVec 11).toNat ≤ 1024; decide, by intro h; exact absurd h (by decide)⟩, _, rfl⟩

end Sys2Proof.Tests
end

/-! SUPPORT. What a command, a transaction and a step that end in a next state have done, as a relation of the two
states: the frames and the invariants of the machine are proved by cases on it. -/

namespace Sys2Proof.Machine

/-! ### How a command ends -/

/-- The error of a command, by the checks of R203 in their order; none where it runs. -/
def commandError (s : State) : Instr → Option ErrCode
  | .init R => initError (secretLength s) R.toNat
  | .encrypt | .decrypt | .whiten | .subf _ | .subr _ | .rotf _ | .rotb _ =>
    bufferError s.ctxValid (bufLength s)

@[simp] theorem commandError_init (s : State) (R : BitVec 16) :
    commandError s (.init R) = initError (secretLength s) R.toNat := rfl

@[simp] theorem commandError_setPort (rest : List Event) (s : State) (i : Instr) :
    commandError (setPort rest s) i = commandError s i := by cases i <;> rfl

theorem commandError_of_bufferPass {s : State} {i : Instr} {f : List Byte → List Byte} (h : bufferPass s i = some f) :
    commandError s i = bufferError s.ctxValid (bufLength s) := by
  cases i with
  | init R => simp [bufferPass] at h
  | _ => rfl

/-- A command is an INIT or a pass over the buffer. -/
theorem init_or_bufferPass (s : State) (i : Instr) : (∃ R, i = .init R) ∨ ∃ f, bufferPass s i = some f := by
  cases i with
  | init R => exact .inl ⟨R, rfl⟩
  | _ => exact .inr ⟨_, rfl⟩

theorem ne_init_of_bufferPass {s : State} {i : Instr} {f : List Byte → List Byte} (h : bufferPass s i = some f)
    (R : BitVec 16) : i ≠ .init R := by
  rintro rfl
  simp [bufferPass] at h

theorem initError_eq_none {l r : Nat} : initError l r = none ↔ 1 ≤ l ∧ l ≤ 256 ∧ r ≤ 1024 := by
  unfold initError
  split_ifs <;> simp <;> omega

theorem commandError_ne_ok (s : State) (i : Instr) : commandError s i ≠ some .ok := by
  have hinit (l r : Nat) : initError l r ≠ some .ok := by
    unfold initError
    split_ifs <;> simp
  have hbuf (c : Bool) (L : Nat) : bufferError c L ≠ some .ok := by
    unfold bufferError
    split_ifs <;> simp
  cases i with
  | init R => exact hinit _ _
  | _ => exact hbuf _ _

/-- A command that fails a check raises the error of that check and does nothing else (R201, R203). -/
theorem exec_of_commandError {s : State} {i : Instr} {e : ErrCode} (h : commandError s i = some e) :
    exec i s = .next (raiseError e s) := by
  rcases init_or_bufferPass s i with ⟨R, rfl⟩ | ⟨f, hf⟩
  · rw [commandError_init] at h
    simp only [exec, execInit, h]
  · rw [commandError_of_bufferPass hf] at h
    simp only [exec_eq_runOnBuffer hf, runOnBuffer, h]

/-- A command over the buffer whose checks pass runs its pass (R202). -/
theorem exec_bufferPass_of_ok {s : State} {i : Instr} {f : List Byte → List Byte} (hf : bufferPass s i = some f)
    (he : commandError s i = none) : exec i s = .next (finish (setBufBytes (f (bufBytes s)) s)) := by
  obtain ⟨hc, hL⟩ := bufferError_eq_none.1 ((commandError_of_bufferPass hf).symm.trans he)
  exact (exec_eq_runOnBuffer hf).trans (runOnBuffer_of_ok f hc hL)

/-- An INIT whose checks pass loads the context of the secret (R184). -/
theorem exec_init_of_ok {s : State} {R : BitVec 16} {t : Tables} (h : initError (secretLength s) R.toNat = none)
    (ht : buildTables (keySchedule (secretBytes s)) = some t) :
    exec (.init R) s =
      .next (finish (loadContext (keySchedule (secretBytes s)) t.fwd t.inv (R.setWidth 11) s)) := by
  simp only [exec, execInit, h, ht]

/-- The three ways in which a command ends in a next state: it fails a check; it is a pass over the buffer; it is an
INIT that loads the context of the secret (R184, R201, R202). -/
inductive CommandEnds (s : State) : Instr → State → Prop
  | failed {i : Instr} {e : ErrCode} (he : commandError s i = some e) : CommandEnds s i (raiseError e s)
  | pass {i : Instr} {f : List Byte → List Byte} (hf : bufferPass s i = some f) (he : commandError s i = none) :
      CommandEnds s i (finish (setBufBytes (f (bufBytes s)) s))
  | loaded {R : BitVec 16} {t : Tables} (he : initError (secretLength s) R.toNat = none)
      (ht : buildTables (keySchedule (secretBytes s)) = some t) :
      CommandEnds s (.init R) (finish (loadContext (keySchedule (secretBytes s)) t.fwd t.inv (R.setWidth 11) s))

/-- Every command ends, in one of the three ways; none faults, because the table builder has a result (R125). -/
theorem exec_ends (i : Instr) (s : State) : ∃ t, exec i s = .next t ∧ CommandEnds s i t := by
  rcases he : commandError s i with _ | e
  · rcases init_or_bufferPass s i with ⟨R, rfl⟩ | ⟨f, hf⟩
    · obtain ⟨t, ht⟩ := buildTables_isSome (keySchedule (secretBytes s))
      exact ⟨_, exec_init_of_ok he ht, .loaded he ht⟩
    · exact ⟨_, exec_bufferPass_of_ok hf he, .pass hf he⟩
  · exact ⟨_, exec_of_commandError he, .failed he⟩

theorem commandEnds_of_exec {i : Instr} {s t : State} (h : exec i s = .next t) : CommandEnds s i t := by
  obtain ⟨u, hu, hends⟩ := exec_ends i s
  obtain rfl : u = t := Host.Outcome.next.inj (hu.symm.trans h)
  exact hends

/-- ERR after a command is the error of its checks, or 0 (R26, R202). -/
theorem CommandEnds.err_eq {i : Instr} {s t : State} (h : CommandEnds s i t) :
    t.err = (commandError s i).getD .ok := by
  cases h with
  | failed he => rw [he]; rfl
  | pass hf he => rw [he]; rfl
  | loaded he ht => rw [commandError_init, he]; rfl

/-! ### What a step does -/

/-- A reset, between commands or during one (R230, R232). -/
def Event.IsReset (e : Event) : Prop := e = .reset ∨ ∃ w, e = .resetDuring w

/-- The CMD write of an INIT. -/
def Event.IsInit (e : Event) : Prop := ∃ w R, e = .regWrite 0x000 w ∧ decode w = .command (.init R)

/-- What performing an event changes, where it ends in a next state. -/
inductive Performed (s : State) : Event → State → Prop
  | read {e : Event} (r : Reply) (he : (∃ off, e = .regRead off) ∨ ∃ a, e = .memRead a) : Performed s e (reply r s)
  | secretByte (a : Addr) (v : Byte) {i : Nat} (hi : i < 256) : Performed s (.memWrite a v) (setSecretByte i v s)
  | bufByte (a : Addr) (v : Byte) {i : Nat} (hi : i < 65536) : Performed s (.memWrite a v) (setBufByte i v s)
  | secretLen (v : Word) : Performed s (.regWrite 0x008 v) { s with secretLen := v.setWidth 16 }
  | bufLen (v : Word) : Performed s (.regWrite 0x00C v) { s with bufLen := v.setWidth 17 }
  | ignored {e : Event} (he : (∃ off v, e = .regWrite off v ∧ off ≠ 0) ∨ ∃ a v, e = .memWrite a v) : Performed s e s
  | illegal {w : Word} {why : IllegalWord} (hw : decode w = .illegal why) :
      Performed s (.regWrite 0x000 w) (raiseError .illegalCmd s)
  | command {w : Word} {i : Instr} {t : State} (hw : decode w = .command i) (ht : CommandEnds s i t) :
      Performed s (.regWrite 0x000 w) t
  | reset {e : Event} (he : e.IsReset) : Performed s e (takeReset s)

theorem performed_of_perform {e : Event} {s t : State} (h : perform e s = .next t) : Performed s e t := by
  have target_eq {u : State} (hu : perform e s = .next u) : u = t := Host.Outcome.next.inj (hu.symm.trans h)
  rcases perform_cases e s with ⟨r, hr, -⟩ | ⟨-, hread | hsec | hbuf | hsl | hbl | hign | hill | hcmd | hres⟩
  · simp [hr] at h
  · obtain ⟨r, he, hu⟩ := hread
    exact target_eq hu ▸ .read r he
  · obtain ⟨a, v, i, rfl, hu, hi⟩ := hsec
    exact target_eq hu ▸ .secretByte a v hi
  · obtain ⟨a, v, i, rfl, hu, hi⟩ := hbuf
    exact target_eq hu ▸ .bufByte a v hi
  · obtain ⟨v, rfl, hu⟩ := hsl
    exact target_eq hu ▸ .secretLen v
  · obtain ⟨v, rfl, hu⟩ := hbl
    exact target_eq hu ▸ .bufLen v
  · obtain ⟨he, hu⟩ := hign
    exact target_eq hu ▸ .ignored he
  · obtain ⟨w, why, rfl, hw, hu⟩ := hill
    exact target_eq hu ▸ .illegal hw
  · obtain ⟨w, i, rfl, hw, hu⟩ := hcmd
    exact .command hw (commandEnds_of_exec (hu.symm.trans h))
  · obtain ⟨he, hu⟩ := hres
    exact target_eq hu ▸ .reset he

/-- A step of a busy port performs its oldest event; a step of an idle port changes nothing. -/
theorem performed_of_step {s t : State} (h : step s = .next t) :
    (s.port = [] ∧ t = s) ∨ ∃ e rest, s.port = e :: rest ∧ Performed (setPort rest s) e t := by
  rcases hp : s.port with _ | ⟨e, rest⟩
  · exact .inl ⟨rfl, (Host.Outcome.next.inj ((step_of_idle hp).symm.trans h)).symm⟩
  · exact .inr ⟨e, rest, rfl, performed_of_perform ((step_of_port hp).symm.trans h)⟩

/-! ### Commands, resets and plain transactions -/

/-- A transaction that runs no command, and no reset. -/
def Event.IsPlain (e : Event) : Prop := ¬ e.IsReset ∧ ∀ w, e ≠ .regWrite 0x000 w

theorem Event.IsInit.not_isReset {e : Event} (h : e.IsInit) : ¬ e.IsReset := by
  obtain ⟨w, R, rfl, -⟩ := h
  simp [Event.IsReset]

theorem Event.IsPlain.not_isInit {e : Event} (h : e.IsPlain) : ¬ e.IsInit := fun ⟨w, _, he, _⟩ => h.2 w he

theorem Event.isPlain_read {e : Event} (he : (∃ off, e = .regRead off) ∨ ∃ a, e = .memRead a) : e.IsPlain := by
  rcases he with ⟨off, rfl⟩ | ⟨a, rfl⟩ <;> simp [Event.IsPlain, Event.IsReset]

theorem Event.isPlain_memWrite (a : Addr) (v : Byte) : Event.IsPlain (.memWrite a v) := by
  simp [Event.IsPlain, Event.IsReset]

theorem Event.isPlain_regWrite {off : Addr} (h : off ≠ 0x000) (v : Word) : Event.IsPlain (.regWrite off v) := by
  refine ⟨by simp [Event.IsReset], fun w he => ?_⟩
  exact h (Event.regWrite.inj he).1

/-- The whole context is the same: K, the tables, ROUNDS and CTX_VALID (R34). -/
structure SameContext (s t : State) : Prop where
  key : t.key = s.key
  fwd : t.fwd = s.fwd
  inv : t.inv = s.inv
  rounds : t.rounds = s.rounds
  ctxValid : t.ctxValid = s.ctxValid

/-- What an event does to the context and to ERR: a plain transaction leaves both; the rest is a CMD write, of an
illegal word or of a command, and a reset. -/
theorem Performed.event_cases {s t : State} {e : Event} (h : Performed s e t) :
    (e.IsPlain ∧ SameContext s t ∧ t.err = s.err ∧ t.epoch = s.epoch) ∨
    (∃ w why, e = .regWrite 0x000 w ∧ decode w = .illegal why ∧ t = raiseError .illegalCmd s) ∨
    (∃ w i, e = .regWrite 0x000 w ∧ decode w = .command i ∧ CommandEnds s i t) ∨
    (e.IsReset ∧ t = takeReset s) := by
  cases h with
  | read r he => exact .inl ⟨Event.isPlain_read he, ⟨rfl, rfl, rfl, rfl, rfl⟩, rfl, rfl⟩
  | secretByte a v hi => exact .inl ⟨Event.isPlain_memWrite a v, ⟨rfl, rfl, rfl, rfl, rfl⟩, rfl, rfl⟩
  | bufByte a v hi => exact .inl ⟨Event.isPlain_memWrite a v, ⟨rfl, rfl, rfl, rfl, rfl⟩, rfl, rfl⟩
  | secretLen v => exact .inl ⟨Event.isPlain_regWrite (by decide) v, ⟨rfl, rfl, rfl, rfl, rfl⟩, rfl, rfl⟩
  | bufLen v => exact .inl ⟨Event.isPlain_regWrite (by decide) v, ⟨rfl, rfl, rfl, rfl, rfl⟩, rfl, rfl⟩
  | ignored he =>
    refine .inl ⟨?_, ⟨rfl, rfl, rfl, rfl, rfl⟩, rfl, rfl⟩
    rcases he with ⟨off, v, rfl, h0⟩ | ⟨a, v, rfl⟩
    · exact Event.isPlain_regWrite h0 v
    · exact Event.isPlain_memWrite a v
  | illegal hw => exact .inr (.inl ⟨_, _, rfl, hw, rfl⟩)
  | command hw ht => exact .inr (.inr (.inl ⟨_, _, rfl, hw, ht⟩))
  | reset he => exact .inr (.inr (.inr ⟨he, rfl⟩))

end Sys2Proof.Machine

/-! PROOF. The sequencer registers are never observed (R36 to R39, R42). -/

namespace Sys2Proof.Machine

/-- Other values of the sequencer registers and of the number of their next draw. -/
def withSequencers (q : Sequencers) (d : Nat) (s : State) : State := { s with seq := q, draws := d }

/-- The two states are the same but for the sequencer registers and the number of their next draw. -/
def SameButSequencers (t u : State) : Prop := withSequencers t.seq t.draws u = t

/-- Two outcomes are the same, but for the sequencer registers where they are next states. -/
inductive SameOutcome :
    Host.Outcome State Fault Refusal → Host.Outcome State Fault Refusal → Prop
  | next {t u : State} (h : SameButSequencers t u) : SameOutcome (.next t) (.next u)
  | fault (f : Fault) : SameOutcome (.fault f) (.fault f)
  | refused (r : Refusal) : SameOutcome (.refused r) (.refused r)

theorem SameOutcome.exists_next {t : State} {o : Host.Outcome State Fault Refusal} (h : SameOutcome (.next t) o) :
    ∃ u, o = .next u ∧ SameButSequencers t u := by
  cases h with
  | next h => exact ⟨_, rfl, h⟩

theorem SameOutcome.eq_refused {r : Refusal} {o : Host.Outcome State Fault Refusal} (h : SameOutcome (.refused r) o) :
    o = .refused r := by
  cases h
  rfl

section
variable (q : Sequencers) (d : Nat) (s : State)

theorem bufferPass_withSequencers (i : Instr) : bufferPass (withSequencers q d s) i = bufferPass s i := by
  cases i <;> rfl

theorem commandError_withSequencers (i : Instr) : commandError (withSequencers q d s) i = commandError s i := by
  cases i <;> rfl

theorem windowByte_withSequencers (b : Bank) (i : Nat) :
    windowByte (withSequencers q d s) b i = windowByte s b i := by
  cases b <;> rfl

theorem regValue_withSequencers (r : Reg) : regValue (withSequencers q d s) r = regValue s r := by
  cases r <;> rfl

theorem exec_withSequencers (i : Instr) : SameOutcome (exec i s) (exec i (withSequencers q d s)) := by
  obtain ⟨t, ht, hends⟩ := exec_ends i s
  rw [ht]
  cases hends with
  | failed he =>
    rw [exec_of_commandError ((commandError_withSequencers q d s i).trans he)]
    exact .next rfl
  | pass hf he =>
    rw [exec_bufferPass_of_ok ((bufferPass_withSequencers q d s i).trans hf)
      ((commandError_withSequencers q d s i).trans he)]
    exact .next rfl
  | loaded he hb =>
    rw [exec_init_of_ok (s := withSequencers q d s) he hb]
    exact .next rfl

theorem regWrite_withSequencers (off : Addr) (v : Word) :
    SameOutcome (regWrite off v s) (regWrite off v (withSequencers q d s)) := by
  unfold regWrite
  rcases regRefusal off with _ | r
  · cases regOf off with
    | cmd =>
      simp only [writeReg, runCommand]
      rcases decode v with i | why
      · exact exec_withSequencers q d s i
      · exact .next rfl
    | _ => exact .next rfl
  · exact .refused r

theorem regRead_withSequencers (off : Addr) :
    SameOutcome (regRead off s) (regRead off (withSequencers q d s)) := by
  unfold regRead
  rw [regValue_withSequencers]
  rcases regRefusal off with _ | r
  · exact .next rfl
  · exact .refused r

theorem memWrite_withSequencers (a : Addr) (v : Byte) :
    SameOutcome (memWrite a v s) (memWrite a v (withSequencers q d s)) := by
  unfold memWrite
  rcases regionOf a with _ | _ | ⟨b, i⟩
  · exact .refused _
  · exact .next rfl
  · cases b <;> exact .next rfl

theorem memRead_withSequencers (a : Addr) :
    SameOutcome (memRead a s) (memRead a (withSequencers q d s)) := by
  unfold memRead
  rcases regionOf a with _ | _ | ⟨b, i⟩
  · exact .refused _
  · exact .next rfl
  · simp only [windowByte_withSequencers]
    exact .next rfl

theorem perform_withSequencers (e : Event) :
    SameOutcome (perform e s) (perform e (withSequencers q d s)) := by
  cases e with
  | regWrite off v => exact regWrite_withSequencers q d s off v
  | regRead off => exact regRead_withSequencers q d s off
  | memWrite a v => exact memWrite_withSequencers q d s a v
  | memRead a => exact memRead_withSequencers q d s a
  | reset => exact .next rfl
  | resetDuring w => exact .next rfl

theorem step_withSequencers : SameOutcome (step s) (step (withSequencers q d s)) := by
  rcases hp : s.port with _ | ⟨e, rest⟩
  · rw [step_of_idle hp, step_of_idle (s := withSequencers q d s) hp]
    exact .next rfl
  · rw [step_of_port hp, step_of_port (s := withSequencers q d s) hp]
    exact perform_withSequencers q d (setPort rest s) e

end

/-- Settles O50: the step and the step from the state with other sequencer registers have the same outcome. -/
theorem sequencersNeverObserved : Obligations.SequencersNeverObserved := by
  intro s q d
  have h := step_withSequencers q d s
  constructor
  · intro t ht
    exact (ht ▸ h).exists_next
  · intro r hr
    exact (hr ▸ h).eq_refused

end Sys2Proof.Machine

/-! SUPPORT. The lengths of the key material and of the tables, and that the tables INIT builds are mutually inverse
(R126). -/

namespace Sys2Proof.Machine

theorem ksFrom_length (S : List Byte) (steps n : Nat) (last acc : Byte) (cursor : Nat) :
    (ksFrom S steps n last acc cursor).length = steps := by
  induction steps generalizing n last acc cursor with
  | zero => rfl
  | succ steps ih => simp only [ksFrom, List.length_cons, ih]

@[simp] theorem keySchedule_length (S : List Byte) : (keySchedule S).length = 1024 := ksFrom_length ..

/-- A property that each step of a fold over `0 .. n-1` carries from one index to the next holds of its result. -/
theorem foldlM_range_induction {σ : Type} {step : σ → Nat → Option σ} (P : Nat → σ → Prop) {n : Nat} {a b : σ}
    (h0 : P 0 a) (hstep : ∀ m t u, m < n → P m t → step t m = some u → P (m + 1) u)
    (h : (List.range n).foldlM step a = some b) : P n b := by
  induction n generalizing b with
  | zero =>
    obtain rfl : a = b := by simpa using h
    exact h0
  | succ n ih =>
    rw [List.range_succ, List.foldlM_append] at h
    obtain ⟨t, ht, hu⟩ := Option.bind_eq_some_iff.1 h
    have hu : step t n = some b := by simpa using hu
    exact hstep n t b (Nat.lt_succ_self n)
      (ih (fun m t u hm => hstep m t u (Nat.lt_succ_of_lt hm)) ht) hu

/-- After `m` slots of a phase: the used positions are the entries written, and the inverse table takes each of them
back to its slot. -/
structure SlotsInverse (m : Nat) (t : Slots) : Prop where
  f_length : t.f.length = m
  inv_length : t.inv.length = 256
  used_iff : ∀ v : Byte, t.used.getLsbD v.toNat = true ↔ v ∈ t.f
  inv_f : ∀ j (hj : j < t.f.length), t.inv[t.f[j].toNat]? = some (BitVec.ofNat 8 j)

/-- A slot takes an unused position, so no entry of the inverse table is written twice. -/
theorem SlotsInverse.of_slotStep {K : List Byte} {p m : Nat} {t u : Slots} (h : SlotsInverse m t)
    (hu : slotStep K p t m = some u) : SlotsInverse (m + 1) u := by
  obtain ⟨c, hc, rfl⟩ := slotStep_eq_some hu
  obtain ⟨-, -, -, hunused, -⟩ := probe_eq_some hc
  have hfresh : c ∉ t.f := fun hmem => by simp [(h.used_iff c).2 hmem] at hunused
  constructor
  · simp [h.f_length]
  · simp [h.inv_length]
  · intro v
    rw [getLsbD_mark, Bool.or_eq_true, h.used_iff v]
    simp
  · intro j hj
    dsimp only at hj ⊢
    by_cases hjm : j < t.f.length
    · have hne : c.toNat ≠ t.f[j].toNat := fun e => hfresh (BitVec.eq_of_toNat_eq e ▸ List.getElem_mem hjm)
      rw [List.getElem_append_left hjm, List.getElem?_set_ne hne, h.inv_f j hjm]
    · obtain rfl : j = m := by simp [h.f_length] at hj hjm; omega
      have hlt : c.toNat < t.inv.length := by rw [h.inv_length]; exact c.isLt
      simp [List.getElem_append_right, h.f_length, hlt]

theorem slotsInverse_of_buildPhase {K : List Byte} {p cursor : Nat} {acc : Byte} {u : Slots}
    (h : buildPhase K p acc cursor = some u) : SlotsInverse 256 u := by
  refine foldlM_range_induction SlotsInverse ?_ (fun m t u _ ht hu => ht.of_slotStep hu) h
  exact ⟨rfl, List.length_replicate, fun v => iff_of_false (by simp) List.not_mem_nil,
    fun j hj => absurd hj (Nat.not_lt_zero j)⟩

/-- Two lists of tables hold mutually inverse tables at phase `p`. -/
def InverseAt (f g : List Byte) (p : Nat) : Prop :=
  ∀ m : Byte,
    g.getD (256 * p + (f.getD (256 * p + m.toNat) 0).toNat) 0 = m ∧
    f.getD (256 * p + (g.getD (256 * p + m.toNat) 0).toNat) 0 = m

/-- The tables of a whole phase are inverse to each other: the inverse table undoes the forward table, which is thus
an injection of the bytes into the bytes, and so a surjection. -/
theorem SlotsInverse.inverse {u : Slots} (h : SlotsInverse 256 u) : InverseAt u.f u.inv 0 := by
  have hleft : Function.LeftInverse (fun v : Byte => u.inv.getD v.toNat 0) (fun m : Byte => u.f.getD m.toNat 0) := by
    intro m
    have hm : m.toNat < u.f.length := by rw [h.f_length]; exact m.isLt
    simp [List.getD_eq_getElem?_getD, hm, h.inv_f m.toNat hm]
  have hright := hleft.rightInverse_of_surjective (Finite.injective_iff_surjective.1 hleft.injective)
  intro m
  simp only [Nat.mul_zero, Nat.zero_add]
  exact ⟨hleft m, hright m⟩

/-- After `p` phases: the lengths of the tables, and each phase done has mutually inverse tables. -/
structure TablesInverse (p : Nat) (t : Tables) : Prop where
  fwd_length : t.fwd.length = 256 * p
  inv_length : t.inv.length = 256 * p
  inverse : ∀ q, q < p → InverseAt t.fwd t.inv q

theorem getD_append_table {l f : List Byte} {p m : Nat} (hl : l.length = 256 * p) :
    (l ++ f).getD (256 * p + m) 0 = f.getD m 0 := by
  rw [List.getD_append_right _ _ _ _ (by omega), hl, Nat.add_sub_cancel_left]

theorem getD_append_earlier_table {l f : List Byte} {p q : Nat} (hl : l.length = 256 * p) (hq : q < p) (m : Byte) :
    (l ++ f).getD (256 * q + m.toNat) 0 = l.getD (256 * q + m.toNat) 0 :=
  List.getD_append _ _ _ _ (by have := m.isLt; omega)

theorem TablesInverse.of_phaseStep {K : List Byte} {p : Nat} {t u : Tables} (h : TablesInverse p t)
    (hu : phaseStep K t p = some u) : TablesInverse (p + 1) u := by
  unfold phaseStep at hu
  rcases hb : buildPhase K p t.acc t.cursor with _ | w
  · simp [hb] at hu
  · obtain rfl : _ = u := by simpa [hb] using hu
    have hw := slotsInverse_of_buildPhase hb
    refine ⟨?_, ?_, fun q hq m => ?_⟩
    · simp [h.fwd_length, hw.f_length]; omega
    · simp [h.inv_length, hw.inv_length]; omega
    · rcases Nat.lt_succ_iff_lt_or_eq.1 hq with hq | rfl
      · simp only [getD_append_earlier_table h.fwd_length hq, getD_append_earlier_table h.inv_length hq]
        exact h.inverse q hq m
      · simp only [getD_append_table h.fwd_length, getD_append_table h.inv_length]
        simpa using hw.inverse m

/-- What the table builder computes: 256 forward and 256 inverse tables, mutually inverse, whatever the key
material (R120, R126). -/
theorem tablesInverse_of_buildTables {K : List Byte} {t : Tables} (h : buildTables K = some t) :
    TablesInverse 256 t :=
  foldlM_range_induction TablesInverse ⟨rfl, rfl, fun q hq => absurd hq (Nat.not_lt_zero q)⟩
    (fun _ _ _ _ ht hu => ht.of_phaseStep hu) h

end Sys2Proof.Machine

/-! PROOF. Every step keeps the invariant (R29, R33, R35). -/

namespace Sys2Proof.Machine

open Sys2Proof.Config

/-! ### Memories keep their canonical form and their size -/

/-- A memory in canonical form that lists only indexes below `n`. -/
def Memory.FitsIn (n : Nat) (m : Memory) : Prop := m.wf ∧ ∀ c ∈ m, c.1 < n

theorem memoriesOk_iff {s : State} : MemoriesOk s ↔ ∀ b, (bankOf s b).FitsIn (bankSize b) := Iff.rfl

theorem Memory.fitsIn_nil (n : Nat) : Memory.FitsIn n [] := ⟨List.Pairwise.nil, by simp⟩

theorem Memory.FitsIn.write {n i : Nat} {m : Memory} (h : m.FitsIn n) (hi : i < n) (v : Byte) :
    (m.write i v).FitsIn n := by
  obtain ⟨hwf, hlt⟩ := h
  refine ⟨Memory.wf_write m i v hwf, fun c hc => ?_⟩
  rcases Memory.mem_write m i v hc with rfl | hc
  · exact hi
  · exact hlt c hc

theorem Memory.FitsIn.writeFront {n : Nat} {m : Memory} (h : m.FitsIn n) {bs : List Byte} (hn : bs.length ≤ n) :
    (m.writeFront bs).FitsIn n := by
  obtain ⟨hwf, hlt⟩ := h
  refine ⟨Memory.wf_writeFront m bs hwf, fun c hc => ?_⟩
  rcases Memory.mem_writeFront hc with hc | hc
  · exact Nat.lt_of_lt_of_le hc hn
  · exact hlt c hc

theorem Memory.fitsIn_ofBytes {n : Nat} {bs : List Byte} (hn : bs.length ≤ n) : (Memory.ofBytes bs).FitsIn n :=
  ⟨Memory.wf_ofBytes bs, fun _ hc => Nat.lt_of_lt_of_le (Memory.mem_ofBytes hc) hn⟩

section
variable {s : State}

theorem MemoriesOk.of_banks {t : State} (h : MemoriesOk s) (hb : ∀ b, bankOf t b = bankOf s b) : MemoriesOk t :=
  memoriesOk_iff.2 fun b => (hb b).symm ▸ memoriesOk_iff.1 h b

theorem memoriesOk_of_empty {t : State} (hb : ∀ b, bankOf t b = []) : MemoriesOk t :=
  memoriesOk_iff.2 fun b => (hb b).symm ▸ Memory.fitsIn_nil _

theorem MemoriesOk.setSecretByte (h : MemoriesOk s) {i : Nat} (hi : i < 256) (v : Byte) :
    MemoriesOk (setSecretByte i v s) := by
  rw [memoriesOk_iff] at h ⊢
  intro b
  by_cases hb : b = .secret
  · subst hb
    exact (h .secret).write hi v
  · rw [bankOf_setSecretByte_of_ne i v s hb]
    exact h b

theorem MemoriesOk.setBufByte (h : MemoriesOk s) {i : Nat} (hi : i < 65536) (v : Byte) :
    MemoriesOk (setBufByte i v s) := by
  rw [memoriesOk_iff] at h ⊢
  intro b
  by_cases hb : b = .buf
  · subst hb
    exact (h .buf).write hi v
  · rw [bankOf_setBufByte_of_ne i v s hb]
    exact h b

theorem MemoriesOk.setBufBytes (h : MemoriesOk s) {bs : List Byte} (hl : bs.length ≤ 65536) :
    MemoriesOk (setBufBytes bs s) := by
  rw [memoriesOk_iff] at h ⊢
  intro b
  by_cases hb : b = .buf
  · subst hb
    exact (h .buf).writeFront hl
  · rw [bankOf_setBufBytes_of_ne bs s hb]
    exact h b

theorem MemoriesOk.loadContext (h : MemoriesOk s) {k f g : List Byte} (hk : k.length ≤ 1024) (hf : f.length ≤ 65536)
    (hg : g.length ≤ 65536) (r : BitVec 11) : MemoriesOk (loadContext k f g r s) := by
  rw [memoriesOk_iff] at h ⊢
  intro b
  cases b with
  | secret => exact h .secret
  | buf => exact h .buf
  | key => exact Memory.fitsIn_ofBytes hk
  | fwd => exact Memory.fitsIn_ofBytes hf
  | inv => exact Memory.fitsIn_ofBytes hg

theorem CommandEnds.memoriesOk {i : Instr} {t : State} (hs : MemoriesOk s) (h : CommandEnds s i t) :
    MemoriesOk t := by
  cases h with
  | failed he => exact hs.of_banks (bankOf_raiseError _ s)
  | @pass i f hf he =>
    obtain ⟨-, hL⟩ := bufferError_eq_none.1 ((commandError_of_bufferPass hf).symm.trans he)
    have hl : (f (bufBytes s)).length ≤ 65536 := by rw [bufferPass_length hf, bufBytes_length]; exact hL
    exact (hs.setBufBytes hl).of_banks (bankOf_finish _)
  | @loaded R t he ht =>
    have htabs := tablesInverse_of_buildTables ht
    exact (hs.loadContext (keySchedule_length _).le htabs.fwd_length.le htabs.inv_length.le _).of_banks
      (bankOf_finish _)

theorem Performed.memoriesOk {e : Event} {t : State} (hs : MemoriesOk s) (h : Performed s e t) : MemoriesOk t := by
  cases h with
  | read r he => exact hs.of_banks (bankOf_reply r s)
  | secretByte a v hi => exact hs.setSecretByte hi v
  | bufByte a v hi => exact hs.setBufByte hi v
  | secretLen v => exact hs.of_banks (by intro b; cases b <;> rfl)
  | bufLen v => exact hs.of_banks (by intro b; cases b <;> rfl)
  | ignored he => exact hs
  | illegal hw => exact hs.of_banks (bankOf_raiseError _ s)
  | command hw ht => exact ht.memoriesOk hs
  | reset he => exact memoriesOk_of_empty (bankOf_takeReset s)

end

/-! ### What a step does to the context (R25, R34) -/

/-- What a successful INIT in `s` leaves: a valid context with a legal round count, computed from a legal secret
(R184). -/
structure LoadedContext (s t : State) : Prop where
  ctxValid : t.ctxValid = true
  rounds : RoundsOk t
  secret : 1 ≤ (secretBytes s).length ∧ (secretBytes s).length ≤ secretMax
  contextOf : ContextOf (secretBytes s) t

section
variable {s t : State}

theorem CommandEnds.context_cases {i : Instr} (h : CommandEnds s i t) :
    ((∃ R, i = .init R) ∧ t.err = .ok ∧ LoadedContext s t) ∨
    (¬ ((∃ R, i = .init R) ∧ t.err = .ok) ∧ SameContext s t ∧ t.epoch = s.epoch) := by
  cases h with
  | @failed i e he =>
    have hne : e ≠ .ok := fun h => commandError_ne_ok s i (h ▸ he)
    exact .inr ⟨fun h => hne h.2, ⟨rfl, rfl, rfl, rfl, rfl⟩, rfl⟩
  | pass hf he =>
    refine .inr ⟨?_, ⟨rfl, rfl, rfl, rfl, rfl⟩, rfl⟩
    rintro ⟨⟨R, hi⟩, -⟩
    exact ne_init_of_bufferPass hf R hi
  | @loaded R u he hu =>
    obtain ⟨hl, hl', hR⟩ := initError_eq_none.1 he
    have hrounds : (R.setWidth 11).toNat ≤ 1024 := by
      rw [BitVec.toNat_setWidth]
      exact (Nat.mod_le _ _).trans hR
    rw [← secretBytes_length] at hl hl'
    exact .inl ⟨⟨R, rfl⟩, rfl, rfl, hrounds, ⟨hl, hl'⟩, u, hu, rfl, rfl, rfl⟩

/-- A step's event is a reset, or a successful INIT, or leaves the whole context as it was. -/
theorem Performed.context_cases {e : Event} (h : Performed s e t) :
    (e.IsReset ∧ t = takeReset s) ∨
    (e.IsInit ∧ t.err = .ok ∧ LoadedContext s t) ∨
    (¬ e.IsReset ∧ ¬ (e.IsInit ∧ t.err = .ok) ∧ SameContext s t ∧ t.epoch = s.epoch) := by
  rcases h.event_cases with ⟨hplain, hsame, -, hepoch⟩ | ⟨w, why, rfl, hw, rfl⟩ | ⟨w, i, rfl, hw, hends⟩ | ⟨he, rfl⟩
  · exact .inr (.inr ⟨hplain.1, fun h => hplain.not_isInit h.1, hsame, hepoch⟩)
  · exact .inr (.inr ⟨by simp [Event.IsReset], by simp, ⟨rfl, rfl, rfl, rfl, rfl⟩, rfl⟩)
  · rcases hends.context_cases with ⟨⟨R, rfl⟩, hok, hload⟩ | ⟨hinit, hsame⟩
    · exact .inr (.inl ⟨⟨w, R, rfl, hw⟩, hok, hload⟩)
    · refine .inr (.inr ⟨by simp [Event.IsReset], ?_, hsame⟩)
      rintro ⟨⟨w', R, he, hw'⟩, hok⟩
      obtain ⟨-, rfl⟩ := Event.regWrite.inj he
      exact hinit ⟨⟨R, Decoded.command.inj (hw.symm.trans hw')⟩, hok⟩
  · exact .inl ⟨he, rfl⟩

/-! ### The invariant -/

theorem RoundsOk.of_performed {e : Event} (hs : RoundsOk s) (h : Performed s e t) : RoundsOk t := by
  rcases h.context_cases with ⟨-, rfl⟩ | ⟨-, -, hload⟩ | ⟨-, -, hsame, -⟩
  · exact Nat.zero_le _
  · exact hload.rounds
  · rw [RoundsOk, hsame.rounds]
    exact hs

/-- A memory that lists its first bytes holds them. -/
theorem byteAt_of_ofBytes {b : Bank} {bs : List Byte} (h : bankOf s b = Memory.ofBytes bs) {i : Nat}
    (hi : i < bs.length) : byteAt s b i = bs.getD i 0 := by
  simp [byteAt, h, Memory.read_ofBytes, List.getD_eq_getElem?_getD, hi]

/-- The tables that INIT computes are mutually inverse (R35, R126). -/
theorem ContextOf.tablesOk {S : List Byte} (h : ContextOf S s) : TablesOk s := by
  obtain ⟨u, hu, -, hf, hg⟩ := h
  obtain ⟨hfl, hgl, hinv⟩ := tablesInverse_of_buildTables hu
  have hfwd (p m : Byte) : fwdByte s p.toNat m.toNat = u.fwd.getD (256 * p.toNat + m.toNat) 0 :=
    byteAt_of_ofBytes (b := .fwd) hf (by have := p.isLt; have := m.isLt; omega)
  have hinvb (p m : Byte) : invByte s p.toNat m.toNat = u.inv.getD (256 * p.toNat + m.toNat) 0 :=
    byteAt_of_ofBytes (b := .inv) hg (by have := p.isLt; have := m.isLt; omega)
  intro p m
  simp only [hfwd, hinvb]
  exact hinv p.toNat p.isLt m

theorem TablesOk.of_sameContext (hs : TablesOk s) (h : SameContext s t) (he : t.epoch = s.epoch) : TablesOk t := by
  intro p m
  simp only [fwdByte, invByte, byteAt_congr (b := .fwd) h.fwd he, byteAt_congr (b := .inv) h.inv he]
  exact hs p m

theorem ContextOf.of_sameContext {S : List Byte} (hs : ContextOf S s) (h : SameContext s t) : ContextOf S t := by
  obtain ⟨u, hu, hk, hf, hg⟩ := hs
  exact ⟨u, hu, h.key.trans hk, h.fwd.trans hf, h.inv.trans hg⟩

theorem ContextOk.of_performed {e : Event} (hs : ContextOk s) (h : Performed s e t) : ContextOk t := by
  intro hvalid
  rcases h.context_cases with ⟨-, rfl⟩ | ⟨-, -, hload⟩ | ⟨-, -, hsame, hepoch⟩
  · exact absurd hvalid Bool.false_ne_true
  · exact ⟨hload.contextOf.tablesOk, secretBytes s, hload.secret.1, hload.secret.2, hload.contextOf⟩
  · obtain ⟨htabs, S, hS, hS', hctx⟩ := hs (hsame.ctxValid.symm.trans hvalid)
    exact ⟨htabs.of_sameContext hsame hepoch, S, hS, hS', hctx.of_sameContext hsame⟩

theorem StateInv.of_performed {e : Event} (hs : StateInv s) (h : Performed s e t) : StateInv t :=
  ⟨h.memoriesOk hs.memories, hs.rounds.of_performed h, hs.context.of_performed h⟩

theorem StateInv.setPort (hs : StateInv s) (rest : List Event) : StateInv (setPort rest s) :=
  ⟨hs.memories.of_banks (bankOf_setPort rest s), hs.rounds, hs.context⟩

end

/-- Settles O51: by cases on what a step can do. -/
theorem stepKeepsInvariant : Obligations.StepKeepsInvariant := by
  intro s t hs h
  rcases performed_of_step h with ⟨-, rfl⟩ | ⟨e, rest, -, hperf⟩
  · exact hs
  · exact (hs.setPort rest).of_performed hperf

/-- Settles O52: no memory lists a byte, no round count and no context is there. -/
theorem resetHasInvariant : Obligations.ResetHasInvariant where
  memories := memoriesOk_of_empty fun b => by cases b <;> rfl
  rounds := Nat.zero_le _
  context h := absurd h Bool.false_ne_true

end Sys2Proof.Machine

/-! PROOF. ERR, CTX_VALID and the context over a step, and the frame of a command (R25 to R34, R202). -/

namespace Sys2Proof.Machine

/-! ### CTX_VALID and the context over a step (R25, R34) -/

/-- The port's oldest event is a reset, as the statements about a step write it. -/
theorem isReset_iff_port {s : State} {e : Event} {rest : List Event} (hp : s.port = e :: rest) :
    e.IsReset ↔ ∃ rest', s.port = .reset :: rest' ∨ ∃ w, s.port = .resetDuring w :: rest' := by
  rw [hp]
  constructor
  · rintro (rfl | ⟨w, rfl⟩)
    · exact ⟨rest, .inl rfl⟩
    · exact ⟨rest, .inr ⟨w, rfl⟩⟩
  · rintro ⟨rest', h | ⟨w, h⟩⟩
    · exact .inl (List.cons.inj h).1
    · exact .inr ⟨w, (List.cons.inj h).1⟩

/-- The port's oldest event is the CMD write of an INIT, as the statements about a step write it. -/
theorem isInit_iff_port {s : State} {e : Event} {rest : List Event} (hp : s.port = e :: rest) :
    e.IsInit ↔ ∃ w R rest', s.port = .regWrite 0x000 w :: rest' ∧ decode w = .command (.init R) := by
  rw [hp]
  constructor
  · rintro ⟨w, R, rfl, hw⟩
    exact ⟨w, R, rest, rfl, hw⟩
  · rintro ⟨w, R, rest', h, hw⟩
    exact ⟨w, R, (List.cons.inj h).1, hw⟩

section
variable {s t : State} {e : Event} (h : Performed s e t)
include h

theorem Performed.ctxValid_of_isReset (he : e.IsReset) : t.ctxValid = false := by
  rcases h.context_cases with ⟨-, rfl⟩ | ⟨hinit, -⟩ | ⟨hno, -⟩
  · rfl
  · exact absurd he hinit.not_isReset
  · exact absurd he hno

theorem Performed.ctxValid_of_isInit (he : e.IsInit) (hok : t.err = .ok) : t.ctxValid = true := by
  rcases h.context_cases with ⟨hreset, -⟩ | ⟨-, -, hload⟩ | ⟨-, hno, -⟩
  · exact absurd hreset he.not_isReset
  · exact hload.ctxValid
  · exact absurd ⟨he, hok⟩ hno

theorem Performed.sameContext (hreset : ¬ e.IsReset) (hinit : ¬ (e.IsInit ∧ t.err = .ok)) : SameContext s t := by
  rcases h.context_cases with ⟨he, -⟩ | ⟨he, hok, -⟩ | ⟨-, -, hsame, -⟩
  · exact absurd he hreset
  · exact absurd ⟨he, hok⟩ hinit
  · exact hsame

end

/-- Settles O45: CTX_VALID after a reset, after a successful INIT, and after every other event. -/
theorem onlyInitSetsCtxValid : Obligations.OnlyInitSetsCtxValid := by
  intro s t h
  rcases performed_of_step h with ⟨hp, rfl⟩ | ⟨e, rest, hp, hperf⟩
  · refine ⟨?_, .inl, ?_, fun h1 h0 => absurd (h1.symm.trans h0) (by decide)⟩ <;> simp [hp]
  · refine ⟨fun rest' hr => hperf.ctxValid_of_isReset ((isReset_iff_port hp).2 ⟨rest', hr⟩), fun h1 => ?_,
      fun w R rest' hw hd => hperf.ctxValid_of_isInit ((isInit_iff_port hp).2 ⟨w, R, rest', hw, hd⟩), fun h1 h0 => ?_⟩
    · by_cases hinit : e.IsInit ∧ t.err = .ok
      · obtain ⟨w, R, rest', hw, hd⟩ := (isInit_iff_port hp).1 hinit.1
        exact .inr ⟨w, R, rest', hw, hd, hinit.2⟩
      · have hreset : ¬ e.IsReset := fun he => absurd (h1.symm.trans (hperf.ctxValid_of_isReset he)) (by decide)
        exact .inl ((hperf.sameContext hreset hinit).ctxValid.symm.trans h1)
    · by_contra hno
      have hreset : ¬ e.IsReset := fun he => hno ((isReset_iff_port hp).1 he)
      have hinit : ¬ (e.IsInit ∧ t.err = .ok) := fun he =>
        absurd ((hperf.ctxValid_of_isInit he.1 he.2).symm.trans h0) (by decide)
      exact absurd (h1.symm.trans ((hperf.sameContext hreset hinit).ctxValid.symm.trans h0)) (by decide)

/-- Settles O47: an event that is no reset and no successful INIT leaves the whole context. -/
theorem contextFixedBetweenInits : Obligations.ContextFixedBetweenInits := by
  intro s t h hinit hreset hduring
  rcases performed_of_step h with ⟨-, rfl⟩ | ⟨e, rest, hp, hperf⟩
  · exact ⟨rfl, rfl, rfl, rfl, rfl⟩
  · have hno : ¬ e.IsReset := fun he => by
      obtain ⟨rest', hr | ⟨w, hr⟩⟩ := (isReset_iff_port hp).1 he
      · exact hreset rest' hr
      · exact hduring w rest' hr
    have hno' : ¬ (e.IsInit ∧ t.err = .ok) := fun ⟨he, hok⟩ => by
      obtain ⟨w, R, rest', hw, hd⟩ := (isInit_iff_port hp).1 he
      exact hinit w R rest' hw hd hok
    obtain ⟨hk, hf, hg, hr, hc⟩ := hperf.sameContext hno hno'
    exact ⟨hk, hf, hg, hr, hc⟩

/-! ### ERR over a step (R26, R202) -/

theorem initError_getD (l r : Nat) :
    (initError l r).getD .ok =
      if l = 0 then .emptySecret else if 256 < l then .lenRange else if 1024 < r then .roundsRange else .ok := by
  unfold initError
  split_ifs <;> rfl

theorem bufferError_getD (c : Bool) (L : Nat) :
    (bufferError c L).getD .ok = if c = false then .notInitialized else if 65536 < L then .lenRange else .ok := by
  unfold bufferError
  split_ifs <;> rfl

/-- The error of a CMD write: of the word, or of the command it decodes to; 0 where there is none. -/
def wordError (s : State) (w : Word) : ErrCode :=
  match decode w with
  | .illegal _ => .illegalCmd
  | .command i => (commandError s i).getD .ok

theorem wordError_of_illegal {s : State} {w : Word} {why : IllegalWord} (hw : decode w = .illegal why) :
    wordError s w = .illegalCmd := by rw [wordError, hw]

theorem wordError_of_command {s : State} {w : Word} {i : Instr} (hw : decode w = .command i) :
    wordError s w = (commandError s i).getD .ok := by rw [wordError, hw]

/-- ERR after an event: the error of a CMD write, 0 after a reset, as before after any other event. -/
theorem Performed.err_cases {e : Event} {s t : State} (h : Performed s e t) :
    (∃ w, e = .regWrite 0x000 w ∧ t.err = wordError s w) ∨ (e.IsReset ∧ t.err = .ok) ∨
    (e.IsPlain ∧ t.err = s.err) := by
  rcases h.event_cases with ⟨hplain, -, herr, -⟩ | ⟨w, why, he, hw, rfl⟩ | ⟨w, i, he, hw, hends⟩ | ⟨he, rfl⟩
  · exact .inr (.inr ⟨hplain, herr⟩)
  · exact .inl ⟨w, he, (wordError_of_illegal hw).symm⟩
  · exact .inl ⟨w, he, hends.err_eq.trans (wordError_of_command hw).symm⟩
  · exact .inr (.inl ⟨he, rfl⟩)

theorem Performed.err_of_cmdWrite {w : Word} {s t : State} (h : Performed s (.regWrite 0x000 w) t) :
    t.err = wordError s w := by
  rcases h.err_cases with ⟨w', he, herr⟩ | ⟨he, -⟩ | ⟨hplain, -⟩
  · obtain ⟨-, rfl⟩ := Event.regWrite.inj he
    exact herr
  · simp [Event.IsReset] at he
  · exact absurd rfl (hplain.2 w)

/-- Settles O46: ERR after a CMD write, after a reset, and after any other event. -/
theorem errReportsLastCommand : Obligations.ErrReportsLastCommand := by
  intro s t e rest hp h
  have hperf : Performed (setPort rest s) e t := performed_of_perform ((step_of_port hp).symm.trans h)
  refine ⟨?_, fun he => ?_, fun hw hr hd => ?_⟩
  · rintro w rfl
    rw [hperf.err_of_cmdWrite]
    rcases hd : decode w with i | why
    · rw [wordError_of_command hd, commandError_setPort]
      cases i with
      | init R => exact initError_getD _ _
      | _ => exact bufferError_getD _ _
    · exact wordError_of_illegal hd
  · rcases hperf.err_cases with ⟨w, rfl, -⟩ | ⟨-, herr⟩ | ⟨hplain, -⟩
    · simp at he
    · exact herr
    · exact absurd he hplain.1
  · rcases hperf.err_cases with ⟨w, he, -⟩ | ⟨he | ⟨w, he⟩, -⟩ | ⟨-, herr⟩
    · exact absurd he (hw w)
    · exact absurd he hr
    · exact absurd he (hd w)
    · exact herr

/-! ### The frame of a command (R27, R28, R30, R31, R63) -/

/-- Settles O48: of the three ways in which a command ends, only the pass writes BUF, and it writes `L` bytes. -/
theorem commandFrame : Obligations.CommandFrame := by
  intro i s t h
  cases commandEnds_of_exec h with
  | failed he => exact ⟨rfl, rfl, rfl, rfl, rfl, rfl, rfl, fun j _ => byteAt_raiseError _ s .buf j, fun _ _ => rfl⟩
  | @pass i f hf he =>
    refine ⟨rfl, rfl, rfl, rfl, rfl, rfl, rfl, fun j hj => ?_, fun R hR => absurd hR (ne_init_of_bufferPass hf R)⟩
    have hlen : ¬ j < (f (bufBytes s)).length := by rw [bufferPass_length hf, bufBytes_length]; omega
    rw [byteAt_finish, byteAt_setBufBytes, dif_neg hlen]
  | loaded he ht => exact ⟨rfl, rfl, rfl, rfl, rfl, rfl, rfl, fun _ _ => rfl, fun _ _ => rfl⟩

end Sys2Proof.Machine

/-! PROOF. What a command over the buffer reads (R31, R63, R182). -/

namespace Sys2Proof.Machine

/-! ### The operands of the passes over the buffer (R63) -/

/-- Two states have the same context and open parameters, byte by byte over each whole memory. -/
structure SameOperands (s s' : State) : Prop where
  params : s'.params = s.params
  rounds : s'.rounds = s.rounds
  key : ∀ j, j < 1024 → byteAt s' .key j = byteAt s .key j
  fwd : ∀ j, j < 65536 → byteAt s' .fwd j = byteAt s .fwd j
  inv : ∀ j, j < 65536 → byteAt s' .inv j = byteAt s .inv j

namespace SameOperands

variable {s s' : State} (h : SameOperands s s')
include h

theorem fwdByte_eq {p m : Nat} (hp : p < 256) (hm : m < 256) : fwdByte s' p m = fwdByte s p m :=
  h.fwd _ (by omega)

theorem invByte_eq {p m : Nat} (hp : p < 256) (hm : m < 256) : invByte s' p m = invByte s p m :=
  h.inv _ (by omega)

theorem whitenBytes_eq : whitenBytes s' = whitenBytes s := by
  funext xs
  have hkey (i : Nat) : keyByte s' (i % 1024) = keyByte s (i % 1024) := h.key _ (Nat.mod_lt _ (by decide))
  simp only [whitenBytes, hkey]

theorem subFwd_eq (p : Byte) : subFwd s' p = subFwd s p := by
  funext xs
  have hfwd (b : Byte) : fwdByte s' p.toNat b.toNat = fwdByte s p.toNat b.toNat := h.fwdByte_eq p.isLt b.isLt
  simp only [subFwd, hfwd]

theorem subRev_eq (p : Byte) : subRev s' p = subRev s p := by
  funext xs
  have hinv (b : Byte) : invByte s' p.toNat b.toNat = invByte s p.toNat b.toNat := h.invByte_eq p.isLt b.isLt
  simp only [subRev, hinv]

/-- A rotation amount reads one entry of the forward tables, for either value of ROT_AMOUNT_INDEX (R162). -/
theorem rotAmount_eq (p : Byte) (j : Nat) : rotAmount s' p.toNat j = rotAmount s p.toNat j := by
  have hp := p.isLt
  unfold rotAmount
  rw [h.params]
  by_cases hj : j < 256
  · simp only [hj, if_true, h.fwdByte_eq hp hj]
  · simp only [hj, if_false]
    cases s.params.rotIndex with
    | tableWrap => simp only [h.fwdByte_eq hp (Nat.mod_lt j (by decide))]
    | flatForward =>
      simp only [h.fwdByte_eq (p := (256 * p.toNat + j) % 65536 / 256) (m := (256 * p.toNat + j) % 65536 % 256)
        (by omega) (by omega)]

theorem opList_eq (p : Byte) (L : Nat) : opList s' p.toNat L = opList s p.toNat L := by
  simp only [opList, interiorStart, h.rotAmount_eq, h.fwdByte_eq p.isLt (show 127 < 256 by decide)]

theorem rotFwd_eq (p : Byte) : rotFwd s' p = rotFwd s p := by
  funext xs
  simp only [rotFwd, h.opList_eq, h.params]

theorem rotBwd_eq (p : Byte) : rotBwd s' p = rotBwd s p := by
  funext xs
  simp only [rotBwd, h.opList_eq, h.params]

theorem phaseA_eq {r : Nat} (hr : r < 1024) : phaseA s' r = phaseA s r := h.key _ hr

theorem phaseB_eq (r : Nat) : phaseB s' r = phaseB s r := h.key _ (Nat.mod_lt _ (by decide))

theorem encryptRound_eq {r : Nat} (hr : r < 1024) (xs : List Byte) :
    encryptRound s' xs r = encryptRound s xs r := by
  simp only [encryptRound, h.phaseA_eq hr, h.phaseB_eq, h.subFwd_eq, h.rotFwd_eq, h.rotBwd_eq, h.whitenBytes_eq]

theorem decryptRound_eq {r : Nat} (hr : r < 1024) (xs : List Byte) :
    decryptRound s' xs r = decryptRound s xs r := by
  simp only [decryptRound, h.phaseA_eq hr, h.phaseB_eq, h.subRev_eq, h.rotFwd_eq, h.rotBwd_eq, h.whitenBytes_eq]

/-- With at most 1024 rounds, every phase is a byte that K has, so that the rounds are the same (R182). -/
theorem encryptBytes_eq {R : Nat} (hR : R ≤ 1024) : encryptBytes s' R = encryptBytes s R := by
  funext xs
  rw [encryptBytes, encryptBytes, h.whitenBytes_eq]
  exact List.foldl_ext _ _ _ fun ys r hr => h.encryptRound_eq ((List.mem_range.1 hr).trans_le hR) ys

theorem decryptBytes_eq {R : Nat} (hR : R ≤ 1024) : decryptBytes s' R = decryptBytes s R := by
  funext xs
  rw [decryptBytes, decryptBytes, h.whitenBytes_eq]
  congr 1
  exact List.foldl_ext _ _ _ fun ys r hr =>
    h.decryptRound_eq ((List.mem_range.1 (List.mem_reverse.1 hr)).trans_le hR) ys

theorem bufferPass_eq (hR : RoundsOk s) (i : Instr) : bufferPass s' i = bufferPass s i := by
  cases i with
  | init R => rfl
  | encrypt => simp only [bufferPass, h.rounds, h.encryptBytes_eq hR]
  | decrypt => simp only [bufferPass, h.rounds, h.decryptBytes_eq hR]
  | whiten => simp only [bufferPass, h.whitenBytes_eq]
  | subf p => simp only [bufferPass, h.subFwd_eq]
  | subr p => simp only [bufferPass, h.subRev_eq]
  | rotf p => simp only [bufferPass, h.rotFwd_eq]
  | rotb p => simp only [bufferPass, h.rotBwd_eq]

end SameOperands

/-- Settles O49: both states run the same pass, over the same bytes, behind the same checks. -/
theorem bufferCommandsReadOnlyTheirOperands : Obligations.BufferCommandsReadOnlyTheirOperands := by
  intro i s s' t hi hR hparams hvalid hlen hrounds hbuf hkey hfwd hinv h
  have hops : SameOperands s s' := ⟨hparams, hrounds, hkey, hfwd, hinv⟩
  have hL : bufLength s' = bufLength s := congrArg BitVec.toNat hlen
  obtain ⟨f, hf⟩ := (init_or_bufferPass s i).resolve_left fun ⟨R, h⟩ => hi R h
  have hf' : bufferPass s' i = some f := (hops.bufferPass_eq hR i).trans hf
  have herr : commandError s' i = commandError s i := by
    rw [commandError_of_bufferPass hf', commandError_of_bufferPass hf, hvalid, hL]
  have hbytes : bufBytes s' = bufBytes s := by
    rw [bufBytes, hL]
    exact List.map_congr_left fun j hj => hbuf j (List.mem_range.1 hj)
  cases commandEnds_of_exec h with
  | failed he => exact ⟨_, exec_of_commandError (herr.trans he), rfl, hbuf⟩
  | loaded he ht => exact absurd rfl (hi _)
  | @pass i g hg he =>
    obtain rfl : f = g := Option.some.inj (hf.symm.trans hg)
    refine ⟨_, exec_bufferPass_of_ok hf' (herr.trans he), rfl, fun j hj => ?_⟩
    have hlt : j < (f (bufBytes s)).length := by rw [bufferPass_length hf, bufBytes_length]; exact hj
    simp only [byteAt_finish, byteAt_setBufBytes, hbytes, hlt, dite_true]

end Sys2Proof.Machine

/-! PROOF. The registers as the host reads and writes them, and the state right after reset (R23 to R29, R42). -/

namespace Sys2Proof.Machine

/-! ### Register transactions (R23 to R29) -/

theorem regRefusal_eq_none {off : Addr} (hle : off.toNat ≤ 0xFF) (h4 : off.toNat % 4 = 0) :
    regRefusal off = none := by
  rw [regRefusal, if_neg (Nat.not_lt.2 hle), if_neg (not_not.2 h4)]

theorem regOf_reserved {off : Addr} (h : 0x014 ≤ off.toNat) : regOf off = .reserved := by
  have hne {a : Addr} (ha : a.toNat < 0x014) : off ≠ a := by
    rintro rfl
    exact absurd h (Nat.not_le.2 ha)
  rw [regOf, if_neg (hne (by decide)), if_neg (hne (by decide)), if_neg (hne (by decide)), if_neg (hne (by decide)),
    if_neg (hne (by decide))]

section
variable {s : State} {off : Addr} {rest : List Event}

theorem step_regRead (hp : s.port = .regRead off :: rest) (hle : off.toNat ≤ 0xFF) (h4 : off.toNat % 4 = 0) :
    step s = .next { s with port := rest, replies := s.replies ++ [.word (regValue s (regOf off))] } := by
  have hval : regValue (setPort rest s) (regOf off) = regValue s (regOf off) := by cases regOf off <;> rfl
  rw [step_of_port hp, perform, regRead, regRefusal_eq_none hle h4, hval]
  rfl

theorem step_regWrite {v : Word} (hp : s.port = .regWrite off v :: rest) (hle : off.toNat ≤ 0xFF)
    (h4 : off.toNat % 4 = 0) : step s = writeReg (regOf off) v (setPort rest s) := by
  rw [step_of_port hp, perform, regWrite, regRefusal_eq_none hle h4]

end

/-- STATUS holds CTX_VALID in bit 0 and the code of ERR in bits 7:4 (R24). -/
theorem statusWord_toNat (s : State) : (statusWord s).toNat = 16 * s.err.code.toNat + s.ctxValid.toNat := by
  unfold statusWord
  cases s.err <;> cases s.ctxValid <;> rfl

/-- Settles O35: the value of each register, at its offset. -/
theorem registerReads : Obligations.RegisterReads := by
  intro s off rest hp hle h4
  refine ⟨regValue s (regOf off), step_regRead hp hle h4, ?_, ?_, ?_, ?_, ?_, fun h => ?_⟩
  · rintro rfl
    rfl
  · rintro rfl
    show (statusWord s).toNat = _
    rw [statusWord_toNat]
    cases s.err <;> cases s.ctxValid <;> rfl
  · rintro rfl
    exact BitVec.toNat_setWidth_of_le (by decide)
  · rintro rfl
    exact BitVec.toNat_setWidth_of_le (by decide)
  · rintro rfl
    exact BitVec.toNat_setWidth_of_le (by decide)
  · rw [regOf_reserved h]
    rfl

/-- Settles O36: STATUS, ROUNDS and the reserved registers ignore a write. -/
theorem readOnlyRegistersIgnoreWrites : Obligations.ReadOnlyRegistersIgnoreWrites := by
  intro s off v rest hp hle h4 hoff
  rw [step_regWrite hp hle h4]
  rcases hoff with rfl | hge
  · rfl
  · by_cases hrounds : off = 0x010
    · subst hrounds
      rfl
    · have hne : off.toNat ≠ 0x010 := fun h => hrounds (BitVec.eq_of_toNat_eq h)
      rw [regOf_reserved (by omega)]
      rfl

/-- Settles O37: a write to a length register changes its field only. -/
theorem lengthRegistersStoreTheirField : Obligations.LengthRegistersStoreTheirField := by
  intro s v rest
  constructor
  · intro hp
    exact ⟨_, step_regWrite hp (by decide) (by decide), rfl, BitVec.toNat_setWidth _ v⟩
  · intro hp
    exact ⟨_, step_regWrite hp (by decide) (by decide), rfl, BitVec.toNat_setWidth _ v⟩

/-- Settles O44: the fields of the reset state, and the check that each command fails there. -/
theorem resetStateValues : Obligations.ResetStateValues := by
  refine ⟨rfl, rfl, rfl, rfl, rfl, fun b => by cases b <;> rfl, rfl, rfl, fun R => ?_, fun i hi => ?_⟩
  · exact exec_of_commandError (i := .init R) rfl
  · refine exec_of_commandError ?_
    obtain ⟨f, hf⟩ := (init_or_bufferPass State.reset i).resolve_left fun ⟨R, h⟩ => hi R h
    rw [commandError_of_bufferPass hf]
    rfl

end Sys2Proof.Machine

/-! PROOF. Steps at the host port: the memory windows and the unmapped addresses (R51, R54 to R58), the transactions
that are refused (R52, R53), and what a read, a CMD write and any other event do (R62, R64, R65). -/

namespace Sys2Proof.Machine

/-! ### Memory transactions, by the region of their address (R54 to R58) -/

theorem windowByte_setPort (rest : List Event) (s : State) (b : Bank) (i : Nat) :
    windowByte (setPort rest s) b i = windowByte s b i := by
  cases b <;> rfl

section
variable {s : State} {a : Addr} {v : Byte} {b : Bank} {i : Nat} {rest : List Event}

theorem step_memRead_window (hp : s.port = .memRead a :: rest) (hr : regionOf a = .window b i) :
    step s = .next { s with port := rest, replies := s.replies ++ [.byte (windowByte s b i)] } := by
  rw [step_of_port hp, perform, memRead, hr]
  simp only [windowByte_setPort]
  rfl

theorem step_memRead_unmapped (hp : s.port = .memRead a :: rest) (hr : regionOf a = .unmapped) :
    step s = .next { s with port := rest, replies := s.replies ++ [.byte 0] } := by
  rw [step_of_port hp, perform, memRead, hr]
  rfl

theorem step_memWrite_unmapped (hp : s.port = .memWrite a v :: rest) (hr : regionOf a = .unmapped) :
    step s = .next { s with port := rest } := by
  rw [step_of_port hp, perform, memWrite, hr]
  rfl

theorem step_memWrite_secret (hp : s.port = .memWrite a v :: rest) (hr : regionOf a = .window .secret i) :
    step s = .next (setSecretByte i v (setPort rest s)) := by
  rw [step_of_port hp, perform, memWrite, hr]

theorem step_memWrite_buf (hp : s.port = .memWrite a v :: rest) (hr : regionOf a = .window .buf i) :
    step s = .next (setBufByte i v (setPort rest s)) := by
  rw [step_of_port hp, perform, memWrite, hr]

/-- The windows of K, FWD and INV are read-only (R57, R58). -/
theorem step_memWrite_readOnly (hp : s.port = .memWrite a v :: rest) (hr : regionOf a = .window b i)
    (hsecret : b ≠ .secret) (hbuf : b ≠ .buf) : step s = .next { s with port := rest } := by
  rw [step_of_port hp, perform, memWrite, hr]
  cases b with
  | secret => exact absurd rfl hsecret
  | buf => exact absurd rfl hbuf
  | _ => rfl

end

/-- Settles O38: each window's step, at the region of its address; the bytes after the write of one. -/
theorem secretAndBufWindows : Obligations.SecretAndBufWindows := by
  intro s i v rest
  constructor
  · intro hi
    have hr := regionOf_secretWindow hi
    refine ⟨fun hp => step_memRead_window hp hr,
      fun hp => ⟨_, step_memWrite_secret hp hr, rfl, ?_, fun j hj => ?_⟩⟩
    · rw [byteAt_setSecretByte, if_pos rfl]
    · rw [byteAt_setSecretByte, if_neg hj, byteAt_setPort]
  · intro hi
    have hr := regionOf_bufWindow hi
    refine ⟨fun hp => step_memRead_window hp hr,
      fun hp => ⟨_, step_memWrite_buf hp hr, rfl, ?_, fun j hj => ?_⟩⟩
    · rw [byteAt_setBufByte, if_pos rfl]
    · rw [byteAt_setBufByte, if_neg hj, byteAt_setPort]

/-- Settles O39: each window's step, at the region of its address. -/
theorem contextWindowsMaskedAndReadOnly : Obligations.ContextWindowsMaskedAndReadOnly := by
  intro s v rest
  constructor
  · intro i hi
    have hr := regionOf_keyWindow hi
    exact ⟨fun hp => step_memRead_window hp hr, fun hp => step_memWrite_readOnly hp hr nofun nofun⟩
  · intro p m hpl hm
    have hf := regionOf_fwdWindow hpl hm
    have hi := regionOf_invWindow hpl hm
    exact ⟨fun hp => step_memRead_window hp hf, fun hp => step_memRead_window hp hi,
      fun hp => step_memWrite_readOnly hp hf nofun nofun, fun hp => step_memWrite_readOnly hp hi nofun nofun⟩

/-- Settles O40: both ranges are the unmapped region. -/
theorem unmappedReadsZero : Obligations.UnmappedReadsZero := by
  intro s a v rest ha
  have hr := regionOf_unmapped ha
  exact ⟨fun hp => step_memRead_unmapped hp hr, fun hp => step_memWrite_unmapped hp hr⟩

/-! ### The refused transactions (R52, R53) -/

/-- An event of the form of R50 is never refused: it ends in a next state. -/
theorem perform_eq_next_of_wf {e : Event} (s : State) (h : e.wf = true) : ∃ t, perform e s = .next t := by
  rcases perform_cases e s with ⟨r, -, hw⟩ | ⟨-, hread | hsec | hbuf | hsl | hbl | hign | hill | hcmd | hres⟩
  · exact absurd (h.symm.trans hw) (by decide)
  · obtain ⟨r, -, hu⟩ := hread
    exact ⟨_, hu⟩
  · obtain ⟨a, v, i, -, hu, -⟩ := hsec
    exact ⟨_, hu⟩
  · obtain ⟨a, v, i, -, hu, -⟩ := hbuf
    exact ⟨_, hu⟩
  · obtain ⟨v, -, hu⟩ := hsl
    exact ⟨_, hu⟩
  · obtain ⟨v, -, hu⟩ := hbl
    exact ⟨_, hu⟩
  · exact ⟨_, hign.2⟩
  · obtain ⟨w, why, -, -, hu⟩ := hill
    exact ⟨_, hu⟩
  · obtain ⟨w, i, -, -, hu⟩ := hcmd
    obtain ⟨t, ht, -⟩ := exec_ends i s
    exact ⟨t, hu.trans ht⟩
  · exact ⟨_, hres.2⟩

/-- Exactly the events without the form of R50 are refused. -/
theorem perform_refused_iff (e : Event) (s : State) : (∃ r, perform e s = .refused r) ↔ e.wf = false := by
  constructor
  · rintro ⟨r, hr⟩
    refine Bool.eq_false_iff.2 fun hw => ?_
    obtain ⟨t, ht⟩ := perform_eq_next_of_wf s hw
    cases hr.symm.trans ht
  · intro hw
    rcases perform_cases e s with ⟨r, hr, -⟩ | ⟨hw', -⟩
    · exact ⟨r, hr⟩
    · exact absurd (hw'.symm.trans hw) (by decide)

theorem regOffsetOk_eq_false {off : Addr} : regOffsetOk off = false ↔ 0xFF < off.toNat ∨ off.toNat % 4 ≠ 0 := by
  simp [regOffsetOk, imp_iff_not_or]

theorem memAddrOk_eq_false {a : Addr} : memAddrOk a = false ↔ a.toNat ≤ 0xFF := by
  simp [memAddrOk]

/-- The events without the form of R50, written out: R52 and R53. -/
theorem Event.wf_eq_false {e : Event} :
    e.wf = false ↔
      (∃ off, ((∃ v, e = .regWrite off v) ∨ e = .regRead off) ∧ (0xFF < off.toNat ∨ off.toNat % 4 ≠ 0)) ∨
      (∃ a, ((∃ v, e = .memWrite a v) ∨ e = .memRead a) ∧ a.toNat ≤ 0xFF) := by
  simp only [← regOffsetOk_eq_false, ← memAddrOk_eq_false]
  cases e <;> simp [Event.wf]

/-- Settles O41: the refused events are those without the form of R50. -/
theorem misformedTransactionsRefused : Obligations.MisformedTransactionsRefused := by
  intro s e rest hp
  rw [step_of_port hp, perform_refused_iff, Event.wf_eq_false]

/-! ### Reads (R62, R64) -/

/-- Other transactions held at the port and other values returned before. -/
def withHost (port : List Event) (replies : List Reply) (s : State) : State :=
  { s with port := port, replies := replies }

theorem windowByte_withHost (port : List Event) (replies : List Reply) (s : State) (b : Bank) (i : Nat) :
    windowByte (withHost port replies s) b i = windowByte s b i := by
  cases b <;> rfl

theorem regValue_withHost (port : List Event) (replies : List Reply) (s : State) (r : Reg) :
    regValue (withHost port replies s) r = regValue s r := by
  cases r <;> rfl

/-- A read that ends in a next state returns a value and changes nothing else, and the value does not depend on what
the port holds or has returned. -/
theorem perform_read {e : Event} {s t : State} (he : (∃ off, e = .regRead off) ∨ ∃ a, e = .memRead a)
    (h : perform e s = .next t) :
    ∃ r, t = reply r s ∧
      ∀ port replies, perform e (withHost port replies s) = .next (reply r (withHost port replies s)) := by
  rcases he with ⟨off, rfl⟩ | ⟨a, rfl⟩
  · simp only [perform, regRead, regValue_withHost] at h ⊢
    rcases hr : regRefusal off with _ | r <;> rw [hr] at h
    · exact ⟨_, (Host.Outcome.next.inj h).symm, fun _ _ => rfl⟩
    · cases h
  · simp only [perform, memRead, windowByte_withHost] at h ⊢
    rcases hr : regionOf a with _ | _ | ⟨b, i⟩ <;> rw [hr] at h
    · cases h
    · exact ⟨_, (Host.Outcome.next.inj h).symm, fun _ _ => rfl⟩
    · exact ⟨_, (Host.Outcome.next.inj h).symm, fun _ _ => rfl⟩

/-- Settles O42: the second read is the first one, from a state in which only the host's side differs. -/
theorem readsAreIdempotent : Obligations.ReadsAreIdempotent := by
  intro s t e rest hp he h
  obtain ⟨r, rfl, hread⟩ := perform_read he ((step_of_port hp).symm.trans h)
  refine ⟨r, rfl, ?_⟩
  calc step (reply r (setPort (e :: rest) s))
      = perform e (withHost rest (s.replies ++ [r]) (setPort (e :: rest) s)) := step_of_port rfl
    _ = .next { s with port := rest, replies := s.replies ++ [r] ++ [r] } := hread _ _
    _ = .next { s with port := rest, replies := s.replies ++ [r, r] } := by rw [List.append_assoc]; rfl

/-! ### A step and the port (R64, R65) -/

/-- Settles O6: a CMD write runs the command of its word. -/
theorem stepRunsDecodedCommand : Obligations.StepRunsDecodedCommand := by
  intro s w i rest hp hw
  calc step s = runCommand w (setPort rest s) := step_regWrite hp (by decide) (by decide)
    _ = exec i (setPort rest s) := by rw [runCommand, hw]

/-- A command has no effect on the port, the values returned and the open parameters. -/
theorem CommandEnds.host_unchanged {i : Instr} {s t : State} (h : CommandEnds s i t) :
    t.port = s.port ∧ t.params = s.params ∧ t.replies = s.replies := by
  cases h with
  | failed he => exact ⟨rfl, rfl, rfl⟩
  | pass hf he => exact ⟨rfl, rfl, rfl⟩
  | loaded he ht => exact ⟨rfl, rfl, rfl⟩

/-- An event leaves the held transactions and the open parameters, and only a read returns a value: one. -/
theorem Performed.host_frame {e : Event} {s t : State} (h : Performed s e t) :
    t.port = s.port ∧ t.params = s.params ∧
      (t.replies = s.replies ∨
        ∃ r, t.replies = s.replies ++ [r] ∧ ((∃ off, e = .regRead off) ∨ ∃ addr, e = .memRead addr)) := by
  cases h with
  | read r he => exact ⟨rfl, rfl, .inr ⟨r, rfl, he⟩⟩
  | command hw ht =>
    obtain ⟨hport, hparams, hreplies⟩ := ht.host_unchanged
    exact ⟨hport, hparams, .inl hreplies⟩
  | _ => exact ⟨rfl, rfl, .inl rfl⟩

/-- Settles O7: the idle step, and the frame of the event performed once it is taken from the port. -/
theorem stepPerformsOldestTransaction : Obligations.StepPerformsOldestTransaction :=
  ⟨fun _ hp => step_of_idle hp,
    fun _ _ _ _ hp h => (performed_of_perform ((step_of_port hp).symm.trans h)).host_frame⟩

end Sys2Proof.Machine

/-! PROOF. Command words: the fields of a word decide which command it is (R80 to R87), and what a CMD write of a legal
and of an illegal word does (R84, R86, R206). -/

namespace Sys2Proof

/-! ### The fields of a word (R81) -/

theorem opField_toNat (w : Word) : (opField w).toNat = w.toNat % 2 ^ 8 := BitVec.extractLsb'_toNat 0 8 w

theorem phaseField_toNat (w : Word) : (phaseField w).toNat = w.toNat / 2 ^ 8 % 2 ^ 8 := by
  rw [phaseField, BitVec.extractLsb'_toNat, Nat.shiftRight_eq_div_pow]

theorem rndsField_toNat (w : Word) : (rndsField w).toNat = w.toNat / 2 ^ 16 := by
  rw [rndsField, BitVec.extractLsb'_toNat, Nat.shiftRight_eq_div_pow,
    Nat.mod_eq_of_lt (b := 2 ^ 16) (Nat.div_lt_of_lt_mul w.isLt)]

theorem word_toNat_eq_iff (w : Word) (op phase : Byte) (rnds : BitVec 16) :
    w.toNat = rnds.toNat * 2 ^ 16 + phase.toNat * 2 ^ 8 + op.toNat ↔
      opField w = op ∧ phaseField w = phase ∧ rndsField w = rnds := by
  rw [← BitVec.toNat_inj, ← BitVec.toNat_inj, ← BitVec.toNat_inj, opField_toNat, phaseField_toNat, rndsField_toNat]
  have := op.isLt
  have := phase.isLt
  omega

/-- A word is its three fields. -/
theorem word_ext_iff (w v : Word) :
    w = v ↔ opField w = opField v ∧ phaseField w = phaseField v ∧ rndsField w = rndsField v := by
  rw [← word_toNat_eq_iff, ← (word_toNat_eq_iff v _ _ _).2 ⟨rfl, rfl, rfl⟩, BitVec.toNat_inj]

/-! ### The fields of a command (R81 to R83) -/

/-- OP of a command: the opcode map's column (R83). -/
@[simp] def Instr.op : Instr → Byte
  | .init _ => 0x01
  | .encrypt => 0x02
  | .decrypt => 0x03
  | .whiten => 0x10
  | .subf _ => 0x11
  | .subr _ => 0x12
  | .rotf _ => 0x13
  | .rotb _ => 0x14

/-- PHASE of a command: the operand in format P, zero in the formats N and I (R81). -/
@[simp] def Instr.phase : Instr → Byte
  | .subf p | .subr p | .rotf p | .rotb p => p
  | .init _ | .encrypt | .decrypt | .whiten => 0

/-- RNDS of a command: the operand in format I, zero in the formats N and P (R81). -/
@[simp] def Instr.rnds : Instr → BitVec 16
  | .init R => R
  | .encrypt | .decrypt | .whiten | .subf _ | .subr _ | .rotf _ | .rotb _ => 0

/-- The three fields of the word are the command's. -/
structure HasFields (w : Word) (i : Instr) : Prop where
  op : opField w = i.op
  phase : phaseField w = i.phase
  rnds : rndsField w = i.rnds

theorem hasFields_iff (w : Word) (i : Instr) :
    HasFields w i ↔ opField w = i.op ∧ phaseField w = i.phase ∧ rndsField w = i.rnds :=
  ⟨fun ⟨hop, hp, hr⟩ => ⟨hop, hp, hr⟩, fun ⟨hop, hp, hr⟩ => ⟨hop, hp, hr⟩⟩

/-! ### The words of commands (R86) -/

/-- An operand shifted above the bits of `c`: the OR is a sum. -/
theorem toNat_shiftLeft_or {m k : Nat} (x : BitVec m) (c : Word) (hm : m + k ≤ 32) (hc : c.toNat < 2 ^ k) :
    ((x.setWidth 32 <<< k) ||| c).toNat = x.toNat * 2 ^ k + c.toNat := by
  have hx : x.toNat * 2 ^ k < 2 ^ 32 := calc
    x.toNat * 2 ^ k < 2 ^ m * 2 ^ k := Nat.mul_lt_mul_of_pos_right x.isLt (Nat.two_pow_pos k)
    _ = 2 ^ (m + k) := (Nat.pow_add 2 m k).symm
    _ ≤ 2 ^ 32 := Nat.pow_le_pow_right (by decide) hm
  rw [BitVec.toNat_or, BitVec.toNat_shiftLeft, BitVec.toNat_setWidth_of_le (by omega), Nat.shiftLeft_eq,
    Nat.mod_eq_of_lt hx, ← Nat.shiftLeft_eq, ← Nat.shiftLeft_add_eq_or_of_lt hc]

theorem encode_toNat (i : Instr) :
    (encode i).toNat = i.rnds.toNat * 2 ^ 16 + i.phase.toNat * 2 ^ 8 + i.op.toNat := by
  cases i with
  | init R =>
    rw [encode, toNat_shiftLeft_or R _ (by decide) (by decide)]
    simp
  | encrypt | decrypt | whiten => rfl
  | subf p | subr p | rotf p | rotb p =>
    rw [encode, toNat_shiftLeft_or p _ (by decide) (by decide)]
    simp

theorem eq_encode_iff (w : Word) (i : Instr) : w = encode i ↔ HasFields w i := by
  rw [← BitVec.toNat_inj, encode_toNat, word_toNat_eq_iff, hasFields_iff]

/-! ### Decoding (R83, R87) -/

theorem formatN_eq_command {w : Word} {i j : Instr} :
    formatN w i = .command j ↔ phaseField w = 0 ∧ rndsField w = 0 ∧ i = j := by
  unfold formatN
  split_ifs with hp hr <;> simp_all

theorem formatP_eq_command {w : Word} {f : Byte → Instr} {j : Instr} :
    formatP w f = .command j ↔ rndsField w = 0 ∧ f (phaseField w) = j := by
  unfold formatP
  split_ifs with hr <;> simp_all

theorem formatI_eq_command {w : Word} {f : BitVec 16 → Instr} {j : Instr} :
    formatI w f = .command j ↔ phaseField w = 0 ∧ f (rndsField w) = j := by
  unfold formatI
  split_ifs with hp <;> simp_all

theorem hasFields_of_decode {w : Word} {i : Instr} (h : decode w = .command i) : HasFields w i := by
  have hN {j : Instr} (hop : opField w = j.op) (hphase : j.phase = 0) (hrnds : j.rnds = 0)
      (hj : formatN w j = .command i) : HasFields w i := by
    obtain ⟨hp, hr, rfl⟩ := formatN_eq_command.1 hj
    exact ⟨hop, hp.trans hphase.symm, hr.trans hrnds.symm⟩
  unfold decode at h
  split_ifs at h with hop hop hop hop hop hop hop hop
  · obtain ⟨hp, rfl⟩ := formatI_eq_command.1 h
    exact ⟨hop, hp, rfl⟩
  · exact hN (j := .encrypt) hop rfl rfl h
  · exact hN (j := .decrypt) hop rfl rfl h
  · exact hN (j := .whiten) hop rfl rfl h
  all_goals
    obtain ⟨hr, rfl⟩ := formatP_eq_command.1 h
    exact ⟨hop, rfl, hr⟩

theorem decode_of_hasFields {w : Word} {i : Instr} (h : HasFields w i) : decode w = .command i := by
  obtain ⟨hop, hp, hr⟩ := h
  unfold decode
  rw [hop]
  cases i with
  | init R => exact formatI_eq_command.2 ⟨hp, congrArg _ hr⟩
  | encrypt | decrypt | whiten => exact formatN_eq_command.2 ⟨hp, hr, rfl⟩
  | subf p | subr p | rotf p | rotb p => exact formatP_eq_command.2 ⟨hr, congrArg _ hp⟩

theorem decode_eq_command_iff (w : Word) (i : Instr) : decode w = .command i ↔ HasFields w i :=
  ⟨hasFields_of_decode, decode_of_hasFields⟩

/-- Settles O1: each says that the fields of the word are the command's. -/
theorem decodeEncodeAgree : Obligations.DecodeEncodeAgree := fun w i =>
  (decode_eq_command_iff w i).trans (eq_encode_iff w i).symm

/-- Settles O3: the fields of a decoded word are its command's. -/
theorem operandFieldsOfWord : Obligations.OperandFieldsOfWord := by
  intro w
  constructor
  · intro p h
    have hp : phaseField w = p := by
      rcases h with h | h | h | h <;> exact (hasFields_of_decode h).phase
    rw [← hp, phaseField_toNat]
  · intro R h
    have hR : rndsField w = R := (hasFields_of_decode h).rnds
    rw [← hR, rndsField_toNat]

/-- Settles O4: each word is its command's. -/
theorem sampleWordsDecode : Obligations.SampleWordsDecode :=
  have decode_word {w : Word} {i : Instr} : w = encode i → decode w = .command i := (decodeEncodeAgree w i).2
  ⟨decode_word rfl, decode_word rfl, decode_word rfl, decode_word rfl, decode_word rfl, decode_word rfl,
    decode_word rfl, decode_word rfl, decode_word rfl⟩

/-! ### Legal words (R81, R84) -/

/-- A word is legal where its OP is in the opcode map and the fields that its format needs zero are. -/
theorem exists_command_iff (w : Word) :
    (∃ i, decode w = .command i) ↔
      (opField w = 0x01 ∧ phaseField w = 0) ∨
      (opField w ∈ [(0x02 : Byte), 0x03, 0x10] ∧ phaseField w = 0 ∧ rndsField w = 0) ∨
      (opField w ∈ [(0x11 : Byte), 0x12, 0x13, 0x14] ∧ rndsField w = 0) := by
  simp only [decode_eq_command_iff]
  constructor
  · rintro ⟨i, hop, hp, hr⟩
    rw [hop]
    cases i with
    | init R => exact .inl ⟨rfl, hp⟩
    | encrypt | decrypt | whiten => exact .inr (.inl ⟨by decide, hp, hr⟩)
    | subf p | subr p | rotf p | rotb p => exact .inr (.inr ⟨by simp, hr⟩)
  · rintro (⟨hop, hp⟩ | ⟨hop, hp, hr⟩ | ⟨hop, hr⟩)
    · exact ⟨.init (rndsField w), hop, hp, rfl⟩
    · simp only [List.mem_cons, List.not_mem_nil, or_false] at hop
      rcases hop with hop | hop | hop
      · exact ⟨.encrypt, hop, hp, hr⟩
      · exact ⟨.decrypt, hop, hp, hr⟩
      · exact ⟨.whiten, hop, hp, hr⟩
    · simp only [List.mem_cons, List.not_mem_nil, or_false] at hop
      rcases hop with hop | hop | hop | hop
      · exact ⟨.subf (phaseField w), hop, rfl, hr⟩
      · exact ⟨.subr (phaseField w), hop, rfl, hr⟩
      · exact ⟨.rotf (phaseField w), hop, rfl, hr⟩
      · exact ⟨.rotb (phaseField w), hop, rfl, hr⟩

theorem exists_illegal_iff (w : Word) : (∃ why, decode w = .illegal why) ↔ ¬ ∃ i, decode w = .command i := by
  rcases decode w with i | why <;> simp

/-! ### The opcode map (R83, R87) -/

/-- A row selects a word by the three fields, each under its part of the mask. -/
theorem selects_iff (r : OpRow) (w : Word) :
    r.selects w = true ↔
      opField w &&& opField r.mask = opField r.value ∧ phaseField w &&& phaseField r.mask = phaseField r.value ∧
        rndsField w &&& rndsField r.mask = rndsField r.value := by
  rw [OpRow.selects, beq_iff_eq, word_ext_iff]
  simp only [opField, phaseField, rndsField, BitVec.extractLsb'_and]

/-- Every row compares the whole OP field. -/
theorem opField_of_selects {r : OpRow} {w : Word} (hr : r ∈ opcodeMap) (h : r.selects w = true) :
    opField w = opField r.value := by
  have hmask : ∀ r ∈ opcodeMap, opField r.mask = BitVec.allOnes 8 := by decide
  obtain ⟨hop, -, -⟩ := (selects_iff r w).1 h
  rwa [hmask r hr, BitVec.and_allOnes] at hop

/-- No two rows have the same OP. -/
theorem opcodeMap_value_inj :
    ∀ r ∈ opcodeMap, ∀ r' ∈ opcodeMap, opField r.value = opField r'.value → r = r' := by decide

/-- The row of a command's mnemonic selects the command's word. -/
theorem exists_row_selects_encode (i : Instr) :
    ∃ r ∈ opcodeMap, r.mnemonic = mnemonicOf i ∧ r.selects (encode i) = true := by
  cases i with
  | init R => exact Laws.Encoding.init R
  | encrypt => exact Laws.Encoding.encrypt
  | decrypt => exact Laws.Encoding.decrypt
  | whiten => exact Laws.Encoding.whiten
  | subf p => exact Laws.Encoding.subf p
  | subr p => exact Laws.Encoding.subr p
  | rotf p => exact Laws.Encoding.rotf p
  | rotb p => exact Laws.Encoding.rotb p

theorem exists_row_of_decode {w : Word} {i : Instr} (h : decode w = .command i) :
    ∃ r ∈ opcodeMap, r.mnemonic = mnemonicOf i ∧ r.selects w = true := by
  rw [(decodeEncodeAgree w i).1 h]
  exact exists_row_selects_encode i

/-- Each row compares with zero the fields that the format of its OP needs zero: the formats I, N and P (R81). -/
theorem opcodeMap_formats : ∀ r ∈ opcodeMap,
    (opField r.value = 0x01 ∧ phaseField r.mask = BitVec.allOnes 8 ∧ phaseField r.value = 0) ∨
    (opField r.value ∈ [(0x02 : Byte), 0x03, 0x10] ∧ (phaseField r.mask = BitVec.allOnes 8 ∧ phaseField r.value = 0) ∧
      rndsField r.mask = BitVec.allOnes 16 ∧ rndsField r.value = 0) ∨
    (opField r.value ∈ [(0x11 : Byte), 0x12, 0x13, 0x14] ∧
      rndsField r.mask = BitVec.allOnes 16 ∧ rndsField r.value = 0) := by decide

theorem exists_command_of_selects {r : OpRow} {w : Word} (hr : r ∈ opcodeMap) (h : r.selects w = true) :
    ∃ i, decode w = .command i := by
  obtain ⟨-, hphase, hrnds⟩ := (selects_iff r w).1 h
  have phase_zero : phaseField r.mask = BitVec.allOnes 8 ∧ phaseField r.value = 0 → phaseField w = 0 := by
    rintro ⟨hmask, hvalue⟩
    rwa [hmask, hvalue, BitVec.and_allOnes] at hphase
  have rnds_zero : rndsField r.mask = BitVec.allOnes 16 ∧ rndsField r.value = 0 → rndsField w = 0 := by
    rintro ⟨hmask, hvalue⟩
    rwa [hmask, hvalue, BitVec.and_allOnes] at hrnds
  rw [exists_command_iff, opField_of_selects hr h]
  rcases opcodeMap_formats r hr with ⟨hop, hp⟩ | ⟨hop, hp, hz⟩ | ⟨hop, hz⟩
  · exact .inl ⟨hop, phase_zero hp⟩
  · exact .inr (.inl ⟨hop, phase_zero hp, rnds_zero hz⟩)
  · exact .inr (.inr ⟨hop, rnds_zero hz⟩)

/-- Settles O2: rows differ in their OP, and the words they select are the legal ones. -/
theorem decodeFollowsOpcodeMap : Obligations.DecodeFollowsOpcodeMap := by
  intro w
  refine ⟨fun r hr r' hr' h h' => ?_, fun i h => exists_row_of_decode h, ?_⟩
  · exact opcodeMap_value_inj r hr r' hr' ((opField_of_selects hr h).symm.trans (opField_of_selects hr' h'))
  · rw [exists_illegal_iff]
    constructor
    · intro hno r hr
      exact Bool.eq_false_iff.2 fun h => hno (exists_command_of_selects hr h)
    · rintro hno ⟨i, h⟩
      obtain ⟨r, hr, -, hsel⟩ := exists_row_of_decode h
      exact Bool.eq_false_iff.1 (hno r hr) hsel

end Sys2Proof

namespace Sys2Proof.Machine

/-! ### CMD writes (R84, R86, R206) -/

theorem step_illegal_word {s : State} {w : Word} {why : IllegalWord} {rest : List Event}
    (hp : s.port = .regWrite 0x000 w :: rest) (hw : decode w = .illegal why) :
    step s = .next { s with port := rest, err := .illegalCmd } := by
  calc step s = runCommand w (setPort rest s) := step_regWrite hp (by decide) (by decide)
    _ = .next (raiseError .illegalCmd (setPort rest s)) := by rw [runCommand, hw]

/-- R84's condition over numbers says that no command has the word. -/
theorem illegal_fields_iff (w : Word) :
    (w.toNat % 2 ^ 8 ∉ [0x01, 0x02, 0x03, 0x10, 0x11, 0x12, 0x13, 0x14] ∨
      (w.toNat % 2 ^ 8 ∈ [0x01, 0x02, 0x03, 0x10] ∧ w.toNat / 2 ^ 8 % 2 ^ 8 ≠ 0) ∨
      (w.toNat % 2 ^ 8 ∈ [0x02, 0x03, 0x10, 0x11, 0x12, 0x13, 0x14] ∧ w.toNat / 2 ^ 16 ≠ 0)) ↔
    ¬ ∃ i, decode w = .command i := by
  rw [exists_command_iff]
  simp only [List.mem_cons, List.not_mem_nil, or_false, ← BitVec.toNat_inj, opField_toNat, phaseField_toNat,
    rndsField_toNat, BitVec.reduceToNat]
  generalize w.toNat % 2 ^ 8 = op, w.toNat / 2 ^ 8 % 2 ^ 8 = phase, w.toNat / 2 ^ 16 = rnds
  by_cases hop : op = 0x01 ∨ op = 0x02 ∨ op = 0x03 ∨ op = 0x10 ∨ op = 0x11 ∨ op = 0x12 ∨ op = 0x13 ∨ op = 0x14
  · rcases hop with rfl | rfl | rfl | rfl | rfl | rfl | rfl | rfl <;> simp [imp_iff_not_or]
  · simp only [not_or] at hop
    simp [hop]

/-- Settles O5: the step of a CMD write whose word no command has, and the legal words. -/
theorem illegalWordRaisesIllegalCmd : Obligations.IllegalWordRaisesIllegalCmd := by
  intro w
  refine ⟨fun hill s rest hp => ?_, fun hlegal => ?_⟩
  · obtain ⟨why, hw⟩ := (exists_illegal_iff w).2 ((illegal_fields_iff w).1 hill)
    exact step_illegal_word hp hw
  · exact not_not.1 (mt (illegal_fields_iff w).2 hlegal)

/-- Settles O8: the numbers are the fields of the commands, and a command's word decodes to it. -/
theorem assembledCommandRuns : Obligations.AssembledCommandRuns := by
  refine ⟨fun R => ?_, rfl, rfl, rfl, fun p => ?_, fun i s rest hp => ?_⟩
  · simp [encode_toNat]
  · simp [encode_toNat]
  · exact stepRunsDecodedCommand s (encode i) i rest hp ((decodeEncodeAgree _ i).2 rfl)

end Sys2Proof.Machine

/-! PROOF. The key schedule, byte by byte (R102 to R105), and what INIT reads (R63, R105). -/

namespace Sys2Proof.Machine

/-! ### The recurrence on bytes (R102, R103) -/

/-- `mixed` of step `n` (R103), from the registers of the step before and the secret byte under the cursor. -/
def ksByte (n : Nat) (last acc cur : Byte) : Byte := indexTerm n ^^^ last ^^^ mixfn n acc cur

theorem ksFrom_succ (S : List Byte) (steps n : Nat) (last acc : Byte) (cursor : Nat) :
    ksFrom S (steps + 1) n last acc cursor =
      ksByte n last acc (S.getD cursor 0) ::
        ksFrom S steps (n + 1) (S.getD cursor 0) (ksByte n last acc (S.getD cursor 0)) ((cursor + 1) % S.length) := rfl

/-- Every byte after the first comes from the byte before it; the cursor of step `i` is `i mod ℓ` (R105). -/
theorem ksFrom_getD_succ (S : List Byte) {steps k : Nat} (n : Nat) (last acc : Byte) (hk : k + 1 < steps) :
    (ksFrom S steps n last acc (n % S.length)).getD (k + 1) 0 =
      ksByte (n + k + 1) (S.getD ((n + k) % S.length) 0) ((ksFrom S steps n last acc (n % S.length)).getD k 0)
        (S.getD ((n + k + 1) % S.length) 0) := by
  induction steps generalizing n last acc k with
  | zero => exact absurd hk (Nat.not_lt_zero _)
  | succ steps ih =>
    rw [ksFrom_succ, Nat.mod_add_mod, List.getD_cons_succ]
    cases k with
    | zero =>
      obtain ⟨steps, rfl⟩ : ∃ j, steps = j + 1 := Nat.exists_eq_add_one.2 (by omega)
      simp only [ksFrom_succ, List.getD_cons_zero, Nat.add_zero]
    | succ k => rw [ih (n + 1) _ _ (by omega), List.getD_cons_succ, Nat.add_right_comm n 1 k, Nat.add_assoc n k 1]

theorem keySchedule_getD_zero (S : List Byte) :
    (keySchedule S).getD 0 0 =
      ksByte 0 (S.getD (S.length - 1) 0) (S.getD (S.length - 1) 0 - S.getD 0 0) (S.getD 0 0) := rfl

theorem keySchedule_getD_succ (S : List Byte) {n : Nat} (hn : n + 1 < 1024) :
    (keySchedule S).getD (n + 1) 0 =
      ksByte (n + 1) (S.getD (n % S.length) 0) ((keySchedule S).getD n 0) (S.getD ((n + 1) % S.length) 0) := by
  have h := ksFrom_getD_succ S 0 (S.getD (S.length - 1) 0) (S.getD (S.length - 1) 0 - S.getD 0 0) hn
  rwa [Nat.zero_mod, Nat.zero_add] at h

/-! ### The recurrence in exact integers (R10, R104) -/

theorem toNat_add_emod (x y : Byte) : ((x + y).toNat : Int) = ((x.toNat : Int) + y.toNat) % 256 := by
  rw [BitVec.toNat_add, Int.natCast_emod, Int.natCast_add]
  rfl

theorem toNat_sub_emod (x y : Byte) : ((x - y).toNat : Int) = ((x.toNat : Int) - y.toNat) % 256 := by
  have := y.isLt
  rw [BitVec.toNat_sub]
  omega

/-- `mixfn` in exact integers: one reduction at its end is enough (R104). -/
def mixInt (n : Nat) (acc cur : Int) : Int := if n % 2 = 1 then (acc + cur + 1) % 256 else (acc - cur - 127) % 256

theorem mixfn_toInt (n : Nat) (acc cur : Byte) : ((mixfn n acc cur).toNat : Int) = mixInt n acc.toNat cur.toNat := by
  unfold mixfn mixInt
  split
  · rw [toNat_add_emod, toNat_add_emod, Int.emod_add_emod]
    rfl
  · rw [toNat_sub_emod, toNat_sub_emod, Int.emod_sub_emod]
    rfl

theorem ksByte_toNat (n : Nat) (last acc cur : Byte) :
    (ksByte n last acc cur).toNat =
      (((n / 256 + n % 256) ^^^ last.toNat) ^^^ (mixInt n acc.toNat cur.toNat).toNat) % 256 := by
  have hmod (b : Byte) : b.toNat % 2 ^ 8 = b.toNat := Nat.mod_eq_of_lt b.isLt
  calc (ksByte n last acc cur).toNat
      = (n / 256 + n % 256) % 2 ^ 8 ^^^ last.toNat ^^^ (mixfn n acc cur).toNat := by
        rw [ksByte, indexTerm, BitVec.toNat_xor, BitVec.toNat_xor, BitVec.toNat_ofNat]
    _ = ((n / 256 + n % 256) ^^^ last.toNat ^^^ (mixfn n acc cur).toNat) % 2 ^ 8 := by
        rw [Nat.xor_mod_two_pow, Nat.xor_mod_two_pow, hmod, hmod]
    _ = ((n / 256 + n % 256) ^^^ last.toNat ^^^ (mixInt n acc.toNat cur.toNat).toNat) % 256 := by
        rw [← mixfn_toInt, Int.toNat_natCast]
        rfl

/-- Settles O9: the recurrence on bytes, read as integers at step 0 and at every later step. -/
theorem keyScheduleRecurrence : Obligations.KeyScheduleRecurrence := by
  intro S _
  refine ⟨keySchedule_length S, fun n hn => ?_⟩
  cases n with
  | zero =>
    rw [keySchedule_getD_zero, ksByte_toNat, toNat_sub_emod, Nat.zero_mod]
    rfl
  | succ n =>
    rw [keySchedule_getD_succ S hn, ksByte_toNat]
    rfl

/-! ### What INIT reads (R63, R105) -/

theorem secretBytes_congr {s s' : State} (hlen : s'.secretLen = s.secretLen)
    (hbytes : ∀ i, i < secretLength s → byteAt s' .secret i = byteAt s .secret i) : secretBytes s' = secretBytes s := by
  have hl : secretLength s' = secretLength s := congrArg BitVec.toNat hlen
  rw [secretBytes, hl]
  exact List.map_congr_left fun i hi => hbytes i (List.mem_range.1 hi)

/-- Settles O13: both states fail the same check, or build the tables of the same secret. -/
theorem initReadsOnlyTheSecret : Obligations.InitReadsOnlyTheSecret := by
  intro s s' R hlen hbytes
  have hS : secretBytes s' = secretBytes s := secretBytes_congr hlen hbytes
  have herr : commandError s' (.init R) = commandError s (.init R) :=
    congrArg (initError · R.toNat) (congrArg BitVec.toNat hlen)
  obtain ⟨t, ht, hends⟩ := exec_ends (.init R) s
  cases hends with
  | @failed _ e he =>
    have hne : e ≠ .ok := fun h => commandError_ne_ok s (.init R) (h ▸ he)
    exact ⟨_, _, ht, exec_of_commandError (herr.trans he), rfl, fun hok => absurd hok hne⟩
  | pass hf => exact absurd rfl (ne_init_of_bufferPass hf R)
  | @loaded _ tables he htables =>
    have ht' := exec_init_of_ok (herr.trans he) ((congrArg (buildTables <| keySchedule ·) hS).trans htables)
    rw [hS] at ht'
    exact ⟨_, _, ht, ht', rfl, fun _ => ⟨rfl, rfl, rfl, rfl, rfl⟩⟩

end Sys2Proof.Machine

/-! PROOF. The table builder: its tables are permutations (R126), no step faults (R125, R211), and the recurrence of its
slots (R121 to R125). -/

namespace Sys2Proof.Machine

/-! ### Permutations, and no fault -/

/-- Settles O11: a table with a left inverse is injective, one with a right inverse is surjective. -/
theorem tablesArePermutations : Obligations.TablesArePermutations := by
  intro K
  obtain ⟨t, ht⟩ := buildTables_isSome K
  refine ⟨t, ht, fun p hp => ?_⟩
  have hinv : InverseAt t.fwd t.inv p := (tablesInverse_of_buildTables ht).inverse p hp
  have hleft (m : Byte) : t.inv.getD (256 * p + (t.fwd.getD (256 * p + m.toNat) 0).toNat) 0 = m := (hinv m).1
  have hright (v : Byte) : t.fwd.getD (256 * p + (t.inv.getD (256 * p + v.toNat) 0).toNat) 0 = v := (hinv v).2
  refine ⟨fun m m' h => ?_, fun v => ⟨_, hright v⟩, hleft, hright⟩
  rw [← hleft m, h, hleft m']

theorem exec_ne_fault (i : Instr) (s : State) (f : Fault) : exec i s ≠ .fault f := by
  obtain ⟨t, ht, -⟩ := exec_ends i s
  simp [ht]

/-- Only a command could fault: every other event is refused or ends in a next state. -/
theorem perform_ne_fault (e : Event) (s : State) (f : Fault) : perform e s ≠ .fault f := by
  rcases perform_cases e s with ⟨r, h, -⟩ | ⟨-, ⟨r, -, h⟩ | ⟨a, v, i, -, h, -⟩ | ⟨a, v, i, -, h, -⟩ | ⟨v, -, h⟩ |
    ⟨v, -, h⟩ | ⟨-, h⟩ | ⟨w, why, -, -, h⟩ | ⟨w, i, -, -, h⟩ | ⟨-, h⟩⟩
  all_goals simp [h, exec_ne_fault]

/-- Settles O53: an idle step changes nothing, and no event faults, because every command ends. -/
theorem noStepFaults : Obligations.NoStepFaults := by
  intro s f
  rcases hp : s.port with _ | ⟨e, rest⟩
  · simp [step_of_idle hp]
  · rw [step_of_port hp]
    exact perform_ne_fault e _ f

/-! ### The accumulator and the cursor of every slot (R121, R123, R124) -/

/-- The accumulator before slot `q = 256p + m`, and so after slot `q - 1`: the seed of R121 before slot 0, then one
step of R123 per slot, its key byte under the cursor `q mod 1024` (R124). -/
def accBefore (K : List Byte) : Nat → Byte
  | 0 => K.getD 1023 0 + K.getD 0 0 - 127
  | q + 1 => indexTerm (q / 256) ^^^ mixfn (q / 256) (accBefore K q) (K.getD (q % 1024) 0)

theorem accBefore_slot (K : List Byte) (p : Nat) {m : Nat} (hm : m < 256) :
    accBefore K (256 * p + m + 1) =
      indexTerm p ^^^ mixfn p (accBefore K (256 * p + m)) (K.getD ((256 * p + m) % 1024) 0) := by
  rw [accBefore, show (256 * p + m) / 256 = p by omega]

theorem indexTerm_of_lt {p : Nat} (hp : p < 256) : indexTerm p = BitVec.ofNat 8 p := by
  rw [indexTerm, Nat.div_eq_of_lt hp, Nat.mod_eq_of_lt hp, Nat.zero_add]

/-! ### The entry of a slot (R123, R125) -/

/-- Entry `m` of the table `F` is the first position from `a` on that is no earlier entry, at most `m` steps away. -/
def FirstFree (F : Nat → Byte) (m : Nat) (a : Byte) : Prop :=
  ∃ d, d ≤ m ∧ F m = a + BitVec.ofNat 8 d ∧ (∀ e, e < d → ∃ j, j < m ∧ F j = a + BitVec.ofNat 8 e) ∧
    ∀ j, j < m → F j ≠ F m

/-- It is a fact about the entries up to `m` only. -/
theorem FirstFree.congr {F G : Nat → Byte} {m : Nat} {a : Byte} (h : FirstFree F m a)
    (hFG : ∀ j, j ≤ m → G j = F j) : FirstFree G m a := by
  obtain ⟨d, hd, hm, hbefore, hfresh⟩ := h
  refine ⟨d, hd, (hFG m le_rfl).trans hm, fun e he => ?_, fun j hj => ?_⟩
  · obtain ⟨j, hj, hF⟩ := hbefore e he
    exact ⟨j, hj, (hFG j hj.le).trans hF⟩
  · rw [hFG j hj.le, hFG m le_rfl]
    exact hfresh j hj

/-- A list that holds `d` positions in a row, of the 256, has at least `d` members. -/
theorem le_length_of_run {f : List Byte} {c : Byte} {d : Nat} (hd : d ≤ 256)
    (h : ∀ e, e < d → c + BitVec.ofNat 8 e ∈ f) : d ≤ f.length := by
  have hnodup : ((List.range d).map fun e => c + BitVec.ofNat 8 e).Nodup := by
    refine List.nodup_range.map_on fun a ha b hb hab => ?_
    rw [List.mem_range] at ha hb
    have hofNat : BitVec.ofNat 8 a = BitVec.ofNat 8 b := (BitVec.add_right_inj c).1 hab
    simpa [Nat.mod_eq_of_lt (ha.trans_le hd), Nat.mod_eq_of_lt (hb.trans_le hd)] using congrArg BitVec.toNat hofNat
  have hsub := hnodup.subperm (l₂ := f) fun v hv => by
    obtain ⟨e, he, rfl⟩ := List.mem_map.1 hv
    exact h e (List.mem_range.1 he)
  simpa using hsub.length_le

/-- The position that the probe finds is the first free one, where the used positions are the entries written. -/
theorem firstFree_of_probe {used : BitVec 256} {f : List Byte} {a c : Byte}
    (hused : ∀ v : Byte, used.getLsbD v.toNat = true ↔ v ∈ f) (h : probe used 256 a = some c) :
    FirstFree (fun j => (f ++ [c]).getD j 0) f.length a := by
  obtain ⟨d, hd, rfl, hunused, hbefore⟩ := probe_eq_some h
  have hmem (e : Nat) (he : e < d) : a + BitVec.ofNat 8 e ∈ f := (hused _).1 (hbefore e he)
  have hfresh : a + BitVec.ofNat 8 d ∉ f := fun hm => by rw [(hused _).2 hm] at hunused; cases hunused
  have hold {j : Nat} (hj : j < f.length) : (f ++ [a + BitVec.ofNat 8 d]).getD j 0 = f[j] := by
    rw [List.getD_append _ _ _ _ hj, List.getD_eq_getElem _ _ hj]
  have hnew : (f ++ [a + BitVec.ofNat 8 d]).getD f.length 0 = a + BitVec.ofNat 8 d := by simp
  refine ⟨d, le_length_of_run hd.le hmem, hnew, fun e he => ?_, fun j hj => ?_⟩
  · obtain ⟨j, hj, hfj⟩ := List.getElem_of_mem (hmem e he)
    exact ⟨j, hj, (hold hj).trans hfj⟩
  · simp only [hold hj, hnew]
    exact fun heq => hfresh (heq ▸ List.getElem_mem hj)

/-! ### The recurrence along the slots of a phase, and along the phases -/

/-- After `m` slots of phase `p`: the registers, and the entries written, are those of R123. -/
structure SlotsRecurrence (K : List Byte) (p m : Nat) (t : Slots) : Prop extends SlotsInverse m t where
  acc_eq : t.acc = accBefore K (256 * p + m)
  cursor_eq : t.cursor = (256 * p + m) % 1024
  firstFree : ∀ j, j < m → FirstFree (fun i => t.f.getD i 0) j (accBefore K (256 * p + j + 1))

theorem SlotsRecurrence.of_slotStep {K : List Byte} {p m : Nat} {t u : Slots} (hm : m < 256)
    (h : SlotsRecurrence K p m t) (hu : slotStep K p t m = some u) : SlotsRecurrence K p (m + 1) u := by
  have hinverse := h.toSlotsInverse.of_slotStep hu
  obtain ⟨c, hc, rfl⟩ := slotStep_eq_some hu
  rw [h.acc_eq, h.cursor_eq, ← accBefore_slot K p hm] at hc hinverse ⊢
  refine ⟨hinverse, rfl, by simp only; omega, fun j hj => ?_⟩
  rcases Nat.lt_succ_iff_lt_or_eq.1 hj with hj | rfl
  · exact (h.firstFree j hj).congr fun i hi => List.getD_append _ _ _ _ (by rw [h.f_length]; omega)
  · have hnew := firstFree_of_probe h.used_iff hc
    rwa [h.f_length] at hnew

/-- At the start of a phase (R122). -/
theorem slotsInverse_start (acc : Byte) (cursor : Nat) :
    SlotsInverse 0 { acc := acc, cursor := cursor, used := 0, f := [], inv := List.replicate 256 0 } :=
  ⟨rfl, List.length_replicate, fun v => by simp, fun j hj => absurd hj (Nat.not_lt_zero j)⟩

theorem slotsRecurrence_of_buildPhase {K : List Byte} {p : Nat} {u : Slots}
    (h : buildPhase K p (accBefore K (256 * p)) (256 * p % 1024) = some u) : SlotsRecurrence K p 256 u := by
  refine foldlM_range_induction (SlotsRecurrence K p) ?_ (fun m t u hm ht hu => ht.of_slotStep hm hu) h
  exact ⟨slotsInverse_start _ _, rfl, rfl, fun j hj => absurd hj (Nat.not_lt_zero j)⟩

/-- After `p` phases: the registers, and the entries of each phase done, are those of R123. -/
structure TablesRecurrence (K : List Byte) (p : Nat) (t : Tables) : Prop extends TablesInverse p t where
  acc_eq : t.acc = accBefore K (256 * p)
  cursor_eq : t.cursor = 256 * p % 1024
  firstFree : ∀ q m, q < p → m < 256 →
    FirstFree (fun j => t.fwd.getD (256 * q + j) 0) m (accBefore K (256 * q + m + 1))

theorem phaseStep_eq_some {K : List Byte} {p : Nat} {t u : Tables} (h : phaseStep K t p = some u) :
    ∃ w, buildPhase K p t.acc t.cursor = some w ∧
      u = { acc := w.acc, cursor := w.cursor, fwd := t.fwd ++ w.f, inv := t.inv ++ w.inv } := by
  unfold phaseStep at h
  rcases hb : buildPhase K p t.acc t.cursor with _ | w
  · simp [hb] at h
  · exact ⟨w, rfl, by simpa [hb] using h.symm⟩

theorem TablesRecurrence.of_phaseStep {K : List Byte} {p : Nat} {t u : Tables} (h : TablesRecurrence K p t)
    (hu : phaseStep K t p = some u) : TablesRecurrence K (p + 1) u := by
  have hinverse := h.toTablesInverse.of_phaseStep hu
  obtain ⟨w, hb, rfl⟩ := phaseStep_eq_some hu
  rw [h.acc_eq, h.cursor_eq] at hb
  have hw := slotsRecurrence_of_buildPhase hb
  refine ⟨hinverse, hw.acc_eq, hw.cursor_eq, fun q m hq hm => ?_⟩
  rcases Nat.lt_succ_iff_lt_or_eq.1 hq with hq | rfl
  · exact (h.firstFree q m hq hm).congr fun j hj => List.getD_append _ _ _ _ (by rw [h.fwd_length]; omega)
  · exact (hw.firstFree m hm).congr fun j _ => getD_append_table h.fwd_length

theorem tablesRecurrence_of_buildTables {K : List Byte} {t : Tables} (h : buildTables K = some t) :
    TablesRecurrence K 256 t := by
  refine foldlM_range_induction (TablesRecurrence K) ?_ (fun _ _ _ _ ht hu => ht.of_phaseStep hu) h
  exact ⟨⟨rfl, rfl, fun q hq => absurd hq (Nat.not_lt_zero q)⟩, rfl, rfl,
    fun q _ hq => absurd hq (Nat.not_lt_zero q)⟩

/-- Settles O10: the accumulators are `accBefore`, and the recurrence holds along all phases. -/
theorem tableBuilderRecurrence : Obligations.TableBuilderRecurrence := by
  intro K _
  obtain ⟨t, ht⟩ := buildTables_isSome K
  have h := tablesRecurrence_of_buildTables ht
  refine ⟨t, fun q => accBefore K (q + 1), ht, h.fwd_length, h.inv_length, fun q hq => ?_, fun p m hp hm => ?_⟩
  · have hacc : (if q = 0 then K.getD 1023 0 + K.getD 0 0 - 127 else accBefore K (q - 1 + 1)) = accBefore K q := by
      cases q <;> rfl
    simp only [hacc]
    rw [accBefore, indexTerm_of_lt (Nat.div_lt_of_lt_mul hq), mixfn]
  · obtain ⟨d, hd, hentry, hbefore, hfresh⟩ := h.firstFree p m hp hm
    have hinv := (h.inverse p hp (BitVec.ofNat 8 m)).1
    rw [BitVec.toNat_ofNat, Nat.mod_eq_of_lt hm] at hinv
    exact ⟨d, hd, hentry, hbefore, hfresh, by rw [hinv, BitVec.toNat_ofNat, Nat.mod_eq_of_lt hm]⟩

end Sys2Proof.Machine

/-! PROOF. What a command over the buffer that completes does (R31, R202), and WHITEN (R140 to R142): its result, and
that applied twice it restores the buffer. -/

namespace Sys2Proof.Machine

/-! ### A command over the buffer that completes -/

/-- With a context and a legal length, a command over the buffer completes with its pass done and all else kept. -/
theorem exec_bufferPass_completes {s : State} {i : Instr} {f : List Byte → List Byte} (hf : bufferPass s i = some f)
    (hc : s.ctxValid = true) (hL : bufLength s ≤ 65536) :
    ∃ t, exec i s = .next t ∧ BufferCommandFrame s t ∧ bufBytes t = f (bufBytes s) := by
  have hlen : (f (bufBytes s)).length = bufLength s := by rw [bufferPass_length hf, bufBytes_length]
  have hexec := (exec_eq_runOnBuffer hf).trans (runOnBuffer_of_ok f hc hL)
  refine ⟨_, hexec, ⟨rfl, ?_, fun j hj => ?_⟩, ?_⟩
  · exact ⟨rfl, rfl, rfl, rfl, rfl, rfl, rfl, rfl, rfl, rfl, rfl, rfl⟩
  · obtain ⟨-, -, -, -, -, -, -, hkeep, -⟩ := commandFrame i s _ hexec
    exact hkeep j hj
  · rw [bufBytes_finish, bufBytes_setBufBytes _ _ hlen]

theorem byteAt_of_bufBytes_eq {s : State} {bs : List Byte} (h : bufBytes s = bs) {i : Nat} (hi : i < bs.length) :
    byteAt s .buf i = bs[i] := by
  subst h
  exact (bytesAt_getElem s .buf (bufLength s) i hi).symm

namespace BufferCommandFrame

variable {s t : State} (h : BufferCommandFrame s t)
include h

theorem ctxValid_eq : t.ctxValid = s.ctxValid := by
  obtain ⟨-, ⟨-, hvalid, -⟩, -⟩ := h
  exact hvalid

theorem bufLength_eq : bufLength t = bufLength s := by
  obtain ⟨-, ⟨-, -, -, hlen, -⟩, -⟩ := h
  exact congrArg BitVec.toNat hlen

theorem byteAt_eq_of_ne_buf {b : Bank} (hb : b ≠ .buf) (i : Nat) : byteAt t b i = byteAt s b i := by
  obtain ⟨-, ⟨-, -, -, -, -, hsecret, hkey, hfwd, hinv, -, -, hepoch⟩, -⟩ := h
  refine byteAt_congr ?_ hepoch i
  cases b with
  | secret => exact hsecret
  | buf => exact absurd rfl hb
  | key => exact hkey
  | fwd => exact hfwd
  | inv => exact hinv

theorem byteAt_buf_of_ge {i : Nat} (hi : bufLength s ≤ i) : byteAt t .buf i = byteAt s .buf i := by
  obtain ⟨-, -, hkeep⟩ := h
  exact hkeep i hi

theorem keyByte_eq (i : Nat) : keyByte t i = keyByte s i := h.byteAt_eq_of_ne_buf (b := .key) nofun i

end BufferCommandFrame

/-! ### Whitening (R140 to R142) -/

theorem whitenBytes_getElem (s : State) (xs : List Byte) {i : Nat} (hi : i < (whitenBytes s xs).length) :
    (whitenBytes s xs)[i] = xs[i]'(whitenBytes_length s xs ▸ hi) ^^^ keyByte s (i % 1024) ^^^ 0xFF :=
  List.getElem_mapIdx

/-- Whitening a byte twice with the same key byte restores it (R141). -/
theorem whiten_byte_twice (b k c : Byte) : (b ^^^ k ^^^ c) ^^^ k ^^^ c = b := by
  calc (b ^^^ k ^^^ c) ^^^ k ^^^ c
      = b ^^^ ((k ^^^ c) ^^^ (k ^^^ c)) := by simp only [BitVec.xor_assoc]
    _ = b := by rw [BitVec.xor_self, BitVec.xor_zero]

/-- Settles O16: WHITEN completes with its pass, and the pass whitens each byte. -/
theorem whitenResult : Obligations.WhitenResult := by
  intro s hc hL
  obtain ⟨t, hexec, hframe, hbuf⟩ := exec_bufferPass_completes (i := .whiten) rfl hc hL
  refine ⟨t, hexec, hframe, fun i hi => ?_⟩
  have hlt : i < (whitenBytes s (bufBytes s)).length := by rw [whitenBytes_length, bufBytes_length]; exact hi
  rw [byteAt_of_bufBytes_eq hbuf hlt, whitenBytes_getElem, ← byteAt_of_bufBytes_eq rfl]

/-- Settles O17: both WHITENs use the same length and the same key bytes, so below `L` each byte is whitened twice, and
the others are kept twice. -/
theorem whitenTwiceRestores : Obligations.WhitenTwiceRestores := by
  intro s hc hL
  obtain ⟨t, hst, hframe, hbytes⟩ := whitenResult s hc hL
  obtain ⟨u, htu, hframe', hbytes'⟩ := whitenResult t (hframe.ctxValid_eq.trans hc) (hframe.bufLength_eq.trans_le hL)
  refine ⟨t, u, hst, htu, fun i => ?_⟩
  by_cases hi : i < bufLength s
  · rw [hbytes' i (hframe.bufLength_eq ▸ hi), hframe.keyByte_eq, hbytes i hi, whiten_byte_twice]
  · have hge := Nat.not_lt.1 hi
    rw [hframe'.byteAt_buf_of_ge (hframe.bufLength_eq.trans_le hge), hframe.byteAt_buf_of_ge hge]

end Sys2Proof.Machine

/-! PROOF. SUBF and SUBR (R150 to R154): their results, and that each undoes the other. -/

namespace Sys2Proof.Machine

/-! ### A command that replaces each byte on its own -/

/-- With a context and a legal length, a command whose pass is one function on every byte applies it below `L`. -/
theorem exec_bytewise_completes {s : State} {i : Instr} (g : Byte → Byte) (hf : bufferPass s i = some (List.map g))
    (hc : s.ctxValid = true) (hL : bufLength s ≤ 65536) :
    ∃ t, exec i s = .next t ∧ BufferCommandFrame s t ∧
      ∀ j, j < bufLength s → byteAt t .buf j = g (byteAt s .buf j) := by
  obtain ⟨t, hexec, hframe, hbuf⟩ := exec_bufferPass_completes hf hc hL
  refine ⟨t, hexec, hframe, fun j hj => ?_⟩
  have hlt : j < ((bufBytes s).map g).length := by rw [List.length_map, bufBytes_length]; exact hj
  rw [byteAt_of_bufBytes_eq hbuf hlt, List.getElem_map, ← byteAt_of_bufBytes_eq rfl]

namespace BufferCommandFrame

variable {s t : State} (h : BufferCommandFrame s t)
include h

theorem fwdByte_eq (p m : Nat) : fwdByte t p m = fwdByte s p m := h.byteAt_eq_of_ne_buf (b := .fwd) nofun _

theorem invByte_eq (p m : Nat) : invByte t p m = invByte s p m := h.byteAt_eq_of_ne_buf (b := .inv) nofun _

/-- Two completed commands restore the buffer if the second restores each byte below `L`: the rest is kept by both. -/
theorem buf_restored {u : State} (h' : BufferCommandFrame t u)
    (hbelow : ∀ i, i < bufLength s → byteAt u .buf i = byteAt s .buf i) (i : Nat) :
    byteAt u .buf i = byteAt s .buf i := by
  by_cases hi : i < bufLength s
  · exact hbelow i hi
  · have hge := Nat.not_lt.1 hi
    rw [h'.byteAt_buf_of_ge (h.bufLength_eq.trans_le hge), h.byteAt_buf_of_ge hge]

end BufferCommandFrame

/-! ### Substitution (R150 to R154) -/

/-- Settles O18: both passes are one table look-up on every byte. -/
theorem substitutionResult : Obligations.SubstitutionResult := fun s p hc hL =>
  ⟨exec_bytewise_completes (i := .subf p) (fun b => fwdByte s p.toNat b.toNat) rfl hc hL,
    exec_bytewise_completes (i := .subr p) (fun b => invByte s p.toNat b.toNat) rfl hc hL⟩

/-- Settles O19: the second command looks up in the tables of the first one's context, and the two tables of the phase
are mutually inverse (R35). -/
theorem substitutionInverse : Obligations.SubstitutionInverse := by
  intro s p hc hL htables
  obtain ⟨⟨t, hst, hframe, hbytes⟩, ⟨v, hsv, hframev, hbytesv⟩⟩ := substitutionResult s p hc hL
  constructor
  · obtain ⟨-, u, htu, hframe', hbytes'⟩ :=
      substitutionResult t p (hframe.ctxValid_eq.trans hc) (hframe.bufLength_eq.trans_le hL)
    refine ⟨t, u, hst, htu, hframe.buf_restored hframe' fun i hi => ?_⟩
    rw [hbytes' i (hframe.bufLength_eq ▸ hi), hframe.invByte_eq, hbytes i hi, (htables p _).1]
  · obtain ⟨⟨u, hvu, hframe', hbytes'⟩, -⟩ :=
      substitutionResult v p (hframev.ctxValid_eq.trans hc) (hframev.bufLength_eq.trans_le hL)
    refine ⟨v, u, hsv, hvu, hframev.buf_restored hframe' fun i hi => ?_⟩
    rw [hbytes' i (hframev.bufLength_eq ▸ hi), hframev.fwdByte_eq, hbytesv i hi, (htables p _).2]

end Sys2Proof.Machine

/-! PROOF. Windows and words: the rotations in arithmetic and that each undoes the other (R161), and the byte order of a
window (R160). -/

namespace Sys2Proof.Machine

open Sys2Proof.Config

/-! ### The rotations of a word (R161) -/

theorem shiftLeft_or_ushiftRight_toNat (w : Window) (a b : Nat) :
    ((w <<< a) ||| (w >>> b)).toNat = ((w.toNat * 2 ^ a) ||| (w.toNat / 2 ^ b)) % 2 ^ 64 := by
  have hlt : w.toNat / 2 ^ b < 2 ^ 64 := (Nat.div_le_self _ _).trans_lt w.isLt
  rw [BitVec.toNat_or, BitVec.toNat_shiftLeft, BitVec.toNat_ushiftRight, Nat.shiftLeft_eq,
    Nat.shiftRight_eq_div_pow, Nat.or_mod_two_pow, Nat.mod_eq_of_lt hlt]

theorem rol64_toNat (w : Window) (k : Nat) :
    (rol64 w k).toNat =
      if k = 0 then w.toNat else ((w.toNat * 2 ^ k) ||| (w.toNat / 2 ^ (64 - k))) % 2 ^ 64 := by
  unfold rol64
  split
  · rfl
  · exact shiftLeft_or_ushiftRight_toNat w k (64 - k)

theorem ror64_toNat (w : Window) (k : Nat) :
    (ror64 w k).toNat =
      if k = 0 then w.toNat else ((w.toNat / 2 ^ k) ||| (w.toNat * 2 ^ (64 - k))) % 2 ^ 64 := by
  unfold ror64
  split
  · rfl
  · rw [BitVec.or_comm, Nat.or_comm]
    exact shiftLeft_or_ushiftRight_toNat w (64 - k) k

theorem rotateRight_rotateLeft {n r : Nat} (x : BitVec n) (h : r < n) : (x.rotateLeft r).rotateRight r = x := by
  ext i hi
  simp only [BitVec.getElem_rotateRight, BitVec.getElem_rotateLeft, Nat.mod_eq_of_lt h]
  by_cases hlow : i < n - r
  · simp only [hlow, dite_true, show ¬ r + i < r by omega, dite_false, Nat.add_sub_cancel_left]
  · simp only [hlow, dite_false, show i - (n - r) < r by omega, dite_true, Nat.add_sub_cancel' (Nat.not_lt.1 hlow)]

theorem rotateLeft_rotateRight {n r : Nat} (x : BitVec n) (h : r < n) : (x.rotateRight r).rotateLeft r = x := by
  ext i hi
  simp only [BitVec.getElem_rotateRight, BitVec.getElem_rotateLeft, Nat.mod_eq_of_lt h]
  by_cases hlow : i < r
  · simp only [hlow, dite_true, show ¬ n - r + i < n - r by omega, dite_false, Nat.add_sub_cancel_left]
  · simp only [hlow, dite_false, show i - r < n - r by omega, dite_true, Nat.add_sub_cancel' (Nat.not_lt.1 hlow)]

theorem ror64_rol64 (w : Window) {k : Nat} (h : k < 64) : ror64 (rol64 w k) k = w := by
  rw [rol64_eq_rotateLeft w h, ror64_eq_rotateRight _ h, rotateRight_rotateLeft w h]

theorem rol64_ror64 (w : Window) {k : Nat} (h : k < 64) : rol64 (ror64 w k) k = w := by
  rw [ror64_eq_rotateRight w h, rol64_eq_rotateLeft _ h, rotateLeft_rotateRight w h]

/-- Settles O20: the shifts as a product and a quotient, and the two rotations as those of the bits. -/
theorem rotationArithmetic : Obligations.RotationArithmetic := fun w k hk =>
  have h : k < 64 := Nat.lt_succ_of_le hk
  ⟨rol64_toNat w k, ror64_toNat w k, ror64_rol64 w h, rol64_ror64 w h⟩

/-! ### The word of a window (R160) -/

theorem wordOfBytesLE_cons (b : Byte) (bs : List Byte) :
    wordOfBytesLE (b :: bs) = (wordOfBytesLE bs <<< 8) ||| b.setWidth 64 := rfl

theorem ofDigits_bytes_lt (bs : List Byte) : Nat.ofDigits 256 (bs.map BitVec.toNat) < 256 ^ bs.length := by
  rw [← List.length_map (as := bs) BitVec.toNat]
  refine Nat.ofDigits_lt_base_pow_length (by decide) fun d hd => ?_
  obtain ⟨b, -, rfl⟩ := List.mem_map.1 hd
  exact b.isLt

/-- Up to 8 bytes make a word of the digits they are in base 256: no shift drops a bit. -/
theorem wordOfBytesLE_toNat (bs : List Byte) (h : bs.length ≤ 8) :
    (wordOfBytesLE bs).toNat = Nat.ofDigits 256 (bs.map BitVec.toNat) := by
  induction bs with
  | nil => rfl
  | cons b bs ih =>
    have hlen : bs.length ≤ 7 := Nat.le_of_succ_le_succ h
    have hword := ih (hlen.trans (by decide))
    have hlt : (wordOfBytesLE bs).toNat < 256 ^ 7 :=
      hword ▸ (ofDigits_bytes_lt bs).trans_le (Nat.pow_le_pow_right (by decide) hlen)
    have hb := b.isLt
    calc (wordOfBytesLE (b :: bs)).toNat
        = (wordOfBytesLE bs).toNat * 2 ^ 8 % 2 ^ 64 ||| b.toNat % 2 ^ 64 := by
          rw [wordOfBytesLE_cons, BitVec.toNat_or, BitVec.toNat_shiftLeft, BitVec.toNat_setWidth, Nat.shiftLeft_eq]
      _ = (wordOfBytesLE bs).toNat * 2 ^ 8 ||| b.toNat := by
          rw [Nat.mod_eq_of_lt (by omega), Nat.mod_eq_of_lt (by omega)]
      _ = (wordOfBytesLE bs).toNat * 2 ^ 8 + b.toNat := by
          rw [← Nat.shiftLeft_eq, Nat.shiftLeft_add_eq_or_of_lt hb]
      _ = Nat.ofDigits 256 ((b :: bs).map BitVec.toNat) := by
          rw [List.map_cons, Nat.ofDigits_cons, hword, Nat.add_comm, Nat.mul_comm]
          rfl

theorem wordOfBytesLE_map_toNat (f : Nat → Byte) :
    (wordOfBytesLE ((List.range 8).map f)).toNat = ((List.range 8).map fun j => (f j).toNat * 2 ^ (8 * j)).sum := by
  rw [wordOfBytesLE_toNat _ (by simp), Nat.ofDigits_eq_sum_mapIdx]
  refine congrArg List.sum (List.ext_getElem (by simp) fun j _ _ => ?_)
  simp [pow_mul]

theorem range_eight_reverse : (List.range 8).reverse = (List.range 8).map (7 - ·) := by decide

theorem window_eq_map (xs : List Byte) {off : Nat} (h : off + 8 ≤ xs.length) :
    (xs.drop off).take 8 = (List.range 8).map fun j => xs.getD (off + j) 0 := by
  apply List.ext_getElem
  · simp; omega
  · intro j h1 h2
    have hj : off + j < xs.length := by simp at h2; omega
    simp [hj]

theorem readWindow_le_toNat (xs : List Byte) {off : Nat} (h : off + 8 ≤ xs.length) :
    (readWindow .le xs off).toNat =
      ((List.range 8).map fun j => (xs.getD (off + j) 0).toNat * 2 ^ (8 * j)).sum := by
  rw [readWindow, window_eq_map xs h]
  exact wordOfBytesLE_map_toNat _

/-- The word under BE is the word under LE of the bytes in reverse, and the sum is the same in reverse. -/
theorem readWindow_be_toNat (xs : List Byte) {off : Nat} (h : off + 8 ≤ xs.length) :
    (readWindow .be xs off).toNat =
      ((List.range 8).map fun j => (xs.getD (off + j) 0).toNat * 2 ^ (8 * (7 - j))).sum := by
  rw [readWindow, window_eq_map xs h, wordOfBytes, ← List.map_reverse, range_eight_reverse, List.map_map,
    wordOfBytesLE_map_toNat, ← List.sum_reverse, ← List.map_reverse, range_eight_reverse, List.map_map]
  refine congrArg List.sum (List.map_congr_left fun j hj => ?_)
  have hj : 7 - (7 - j) = j := by have := List.mem_range.1 hj; omega
  simp only [Function.comp_apply, hj]

/-! ### The bytes a word writes (R160) -/

theorem writeWindow_getD_inside (o : ByteOrder) (xs : List Byte) (w : Window) {off j : Nat} (h : off + 8 ≤ xs.length)
    (hj : j < 8) : (writeWindow o xs off w).getD (off + j) 0 = (bytesOfWord o w).getD j 0 := by
  have ht : (xs.take off).length = off := List.length_take_of_le (by omega)
  rw [writeWindow, List.append_assoc, List.getD_append_right _ _ _ _ (by omega), ht, Nat.add_sub_cancel_left,
    List.getD_append _ _ _ _ (by rw [bytesOfWord_length]; exact hj)]

theorem bytesOfWordLE_getD_toNat (w : Window) {j : Nat} (hj : j < 8) :
    ((bytesOfWordLE w).getD j 0).toNat = w.toNat / 2 ^ (8 * j) % 2 ^ 8 := by
  rw [bytesOfWordLE_getD w j hj, BitVec.toNat_setWidth, BitVec.toNat_ushiftRight, Nat.shiftRight_eq_div_pow]

theorem bytesOfWordLE_reverse_getD (w : Window) {j : Nat} (hj : j < 8) :
    (bytesOfWordLE w).reverse.getD j 0 = (bytesOfWordLE w).getD (7 - j) 0 := by
  rw [List.getD_eq_getElem?_getD, List.getElem?_reverse (by rw [bytesOfWordLE_length]; exact hj),
    bytesOfWordLE_length, List.getD_eq_getElem?_getD]

/-- Settles O21: the sum of a window's bytes under both orders, the bytes a word writes, and the bytes it keeps. -/
theorem windowByteOrder : Obligations.WindowByteOrder := by
  refine ⟨rfl, fun xs off h =>
    ⟨readWindow_le_toNat xs h, readWindow_be_toNat xs h, fun w => ⟨fun j hj => ?_, fun o => ⟨?_, fun i hi => ?_⟩⟩⟩⟩
  · constructor
    · rw [writeWindow_getD_inside .le xs w h hj, bytesOfWord, bytesOfWordLE_getD_toNat w hj]
    · rw [writeWindow_getD_inside .be xs w h hj, bytesOfWord, bytesOfWordLE_reverse_getD w hj,
        bytesOfWordLE_getD_toNat w (by omega)]
  · exact writeWindow_length o xs off w h
  · rw [List.getD_eq_getElem?_getD, List.getD_eq_getElem?_getD, writeWindow_getElem?_outside o xs off w h i hi]

end Sys2Proof.Machine

/-! PROOF. The operation list (R162, R163, R166, R171): the amounts, the offsets of the windows, and the list itself. -/

namespace Sys2Proof.Machine

open Sys2Proof.Config

/-! ### Amounts (R162) -/

theorem and_63_toNat (b : Byte) : (b &&& 63).toNat = b.toNat % 64 := by
  rw [BitVec.toNat_and]
  exact Nat.and_two_pow_sub_one_eq_mod b.toNat 6

theorem rotAmount_of_lt (s : State) (p : Nat) {j : Nat} (hj : j < 256) :
    rotAmount s p j = (fwdByte s p j).toNat % 64 := by
  rw [rotAmount, if_pos hj, and_63_toNat]

theorem rotAmount_tableWrap {s : State} (p : Nat) {j : Nat} (hj : 256 ≤ j) (hs : s.params.rotIndex = .tableWrap) :
    rotAmount s p j = (fwdByte s p (j % 256)).toNat % 64 := by
  rw [rotAmount, if_neg (Nat.not_lt.2 hj), hs, and_63_toNat]

theorem rotAmount_flatForward {s : State} (p : Nat) {j : Nat} (hj : 256 ≤ j) (hs : s.params.rotIndex = .flatForward) :
    rotAmount s p j =
      (fwdByte s ((256 * p + j) % 65536 / 256) ((256 * p + j) % 65536 % 256)).toNat % 64 := by
  rw [rotAmount, if_neg (Nat.not_lt.2 hj), hs, and_63_toNat]

/-- Settles O22: one case per branch of R162. -/
theorem rotationAmounts : Obligations.RotationAmounts :=
  ⟨rfl, fun s p j => ⟨rotAmount_lt s p.toNat j, fun hj => rotAmount_of_lt s _ hj,
    fun hj hs => rotAmount_tableWrap _ hj hs, fun hj hs => rotAmount_flatForward _ hj hs⟩⟩

/-! ### The interior offsets (R163, R171) -/

theorem interiorStart_eq_mod (s : State) (p : Nat) : interiorStart s p = (fwdByte s p 127).toNat % 8 := by
  rw [interiorStart, BitVec.toNat_and]
  exact Nat.and_two_pow_sub_one_eq_mod _ 3

theorem interiorOffsets_pairwise (start max : Nat) :
    (interiorOffsets start max).Pairwise (fun a b => a + 8 ≤ b) :=
  List.pairwise_map.2 (List.pairwise_lt_range.imp fun {i j} (h : i < j) => by omega)

@[simp] theorem interiorOffsets_zero (start : Nat) : interiorOffsets start 0 = [] :=
  List.eq_nil_iff_forall_not_mem.2 fun sc hsc =>
    have ⟨_, hlt, _⟩ := mem_interiorOffsets.1 hsc
    Nat.not_lt_zero sc hlt

/-- Settles O28: an interior offset below 8 is the first one, because the others lie at least 8 above `start`. -/
theorem interiorWindowsDisjoint : Obligations.InteriorWindowsDisjoint := by
  intro start max hstart
  refine ⟨interiorOffsets_pairwise start max, ⟨?_, fun h => ?_⟩, fun sc hsc h8 => ?_⟩
  · rintro ⟨sc, hsc, -⟩
    obtain ⟨hge, hlt, -⟩ := mem_interiorOffsets.1 hsc
    exact hge.trans_lt hlt
  · exact ⟨start, mem_interiorOffsets.2 ⟨le_rfl, h, by simp⟩, by omega⟩
  · obtain ⟨hge, -, hmod⟩ := mem_interiorOffsets.1 hsc
    omega

/-- Both lists ascend strictly and have the same members. -/
theorem interiorOffsets_eq_filter (start max : Nat) :
    interiorOffsets start max =
      (List.range max).filter (fun sc => decide (start ≤ sc) && decide ((sc - start) % 8 = 0)) := by
  refine List.Pairwise.eq_of_mem_iff (r := (· < ·))
    ((interiorOffsets_pairwise start max).imp fun h => by omega) (List.pairwise_lt_range.filter _) fun sc => ?_
  simp only [mem_interiorOffsets, List.mem_filter, List.mem_range, Bool.and_eq_true, decide_eq_true_eq]
  exact and_left_comm

/-! ### The list (R163, R166) -/

theorem opList_of_lt_eight (s : State) (p : Nat) {L : Nat} (hL : L < 8) : opList s p L = [] := by
  rw [opList, if_pos hL]

theorem opList_eight (s : State) (p : Nat) : opList s p 8 = [(0, rotAmount s p 0)] := by
  simp [opList]

theorem opList_of_nine_le (s : State) (p : Nat) {L : Nat} (hL : 9 ≤ L) :
    opList s p L = (0, rotAmount s p 0) :: (L - 9, rotAmount s p 1) ::
      (interiorOffsets (interiorStart s p) (L - 8)).map (fun sc => (sc, rotAmount s p (sc / 16))) := by
  simp only [opList, Nat.not_lt.2 (Nat.le_of_succ_le hL), show 1 ≤ L - 8 by omega, if_true, if_false]
  rfl

/-- Settles O23: the three forms of the list, by its length. -/
theorem operationList : Obligations.OperationList := by
  refine fun s p L => ⟨opList_of_lt_eight s _, ?_, fun hL => ?_⟩
  · rintro rfl
    exact opList_eight s _
  · rw [opList_of_nine_le s _ hL, interiorStart_eq_mod, interiorOffsets_eq_filter]

/-- From length 9 on, every window ends before the last byte (R166). -/
theorem opList_offset_le {s : State} {p L : Nat} (hL : 9 ≤ L) {op : Nat × Nat} (h : op ∈ opList s p L) :
    op.1 ≤ L - 9 := by
  rw [opList_of_nine_le s p hL, List.mem_cons, List.mem_cons, List.mem_map] at h
  rcases h with rfl | rfl | ⟨sc, hsc, rfl⟩
  · exact Nat.zero_le _
  · exact le_rfl
  · obtain ⟨-, hlt, -⟩ := mem_interiorOffsets.1 hsc
    exact Nat.le_sub_one_of_lt hlt

end Sys2Proof.Machine

/-! PROOF. ROTF and ROTB (R164 to R171): their results, the last byte, and that each undoes the other. -/

namespace Sys2Proof.Machine

open Sys2Proof.Config

/-! ### The results (R164, R165) -/

/-- Settles O24: ROTF completes with its pass, which is the fold over the list. -/
theorem rotationForwardResult : Obligations.RotationForwardResult := by
  intro s p hc hL
  obtain ⟨t, hexec, hframe, hbuf⟩ := exec_bufferPass_completes (i := .rotf p) rfl hc hL
  refine ⟨t, hexec, hframe, ?_⟩
  rw [hbuf, rotFwd, bufBytes_length]
  rfl

/-- Settles O25: ROTB completes with its pass, which is the fold over the list in reverse. -/
theorem rotationBackwardResult : Obligations.RotationBackwardResult := by
  intro s p hc hL
  obtain ⟨t, hexec, hframe, hbuf⟩ := exec_bufferPass_completes (i := .rotb p) rfl hc hL
  refine ⟨t, hexec, hframe, ?_⟩
  rw [hbuf, rotBwd, bufBytes_length]
  rfl

/-! ### The last byte (R166) -/

/-- Operations on windows that lie inside the buffer and end at or before byte `i` keep byte `i`. -/
theorem foldl_writeWindow_getElem? (o : ByteOrder) (r : List Byte → Nat × Nat → Window) {i : Nat}
    (ops : List (Nat × Nat)) (xs : List Byte) (h : ∀ op ∈ ops, op.1 + 8 ≤ xs.length ∧ op.1 + 8 ≤ i) :
    (ops.foldl (fun ys op => writeWindow o ys op.1 (r ys op)) xs)[i]? = xs[i]? := by
  induction ops generalizing xs with
  | nil => rfl
  | cons op ops ih =>
    obtain ⟨hin, hi⟩ := h op List.mem_cons_self
    rw [List.foldl_cons, ih, writeWindow_getElem?_outside o xs op.1 _ hin i (.inr hi)]
    rw [writeWindow_length o xs op.1 _ hin]
    exact fun op' h' => h op' (List.mem_cons_of_mem _ h')

theorem opList_before_last {s : State} {p L : Nat} (hL : 9 ≤ L) {op : Nat × Nat} (h : op ∈ opList s p L) :
    op.1 + 8 ≤ L ∧ op.1 + 8 ≤ L - 1 := by
  have := opList_offset_le hL h
  omega

theorem rotFwd_getElem?_last (s : State) (p : Byte) {xs : List Byte} (h : 9 ≤ xs.length) :
    (rotFwd s p xs)[xs.length - 1]? = xs[xs.length - 1]? :=
  foldl_writeWindow_getElem? _ (fun ys op => rol64 (readWindow _ ys op.1) op.2) _ xs
    fun _ hop => opList_before_last h hop

theorem rotBwd_getElem?_last (s : State) (p : Byte) {xs : List Byte} (h : 9 ≤ xs.length) :
    (rotBwd s p xs)[xs.length - 1]? = xs[xs.length - 1]? :=
  foldl_writeWindow_getElem? _ (fun ys op => ror64 (readWindow _ ys op.1) op.2) _ xs
    fun _ hop => opList_before_last h (List.mem_reverse.1 hop)

/-- A command over the buffer keeps each byte that its pass keeps, also where it ends in an error. -/
theorem exec_bufferPass_keeps_byte {s t : State} {i : Instr} {f : List Byte → List Byte}
    (hf : bufferPass s i = some f) (h : exec i s = .next t) {k : Nat} (hk : k < bufLength s)
    (hkeep : (f (bufBytes s))[k]? = (bufBytes s)[k]?) : byteAt t .buf k = byteAt s .buf k := by
  cases commandEnds_of_exec h with
  | failed he => exact byteAt_raiseError _ s .buf k
  | @pass i g hg he =>
    obtain rfl : g = f := Option.some.inj (hg.symm.trans hf)
    have hs : k < (bufBytes s).length := by rw [bufBytes_length]; exact hk
    have hlt : k < (g (bufBytes s)).length := by rw [bufferPass_length hf]; exact hs
    rw [List.getElem?_eq_getElem hlt, List.getElem?_eq_getElem hs, Option.some.injEq] at hkeep
    rw [byteAt_finish, byteAt_setBufBytes, dif_pos hlt, hkeep, ← byteAt_of_bufBytes_eq rfl]
  | loaded he ht => exact absurd rfl (ne_init_of_bufferPass hf _)

/-- Settles O27: the bounds of the offsets, and the last byte kept by each operation of the two passes. -/
theorem windowsStayInsideBuffer : Obligations.WindowsStayInsideBuffer := by
  intro s p
  refine ⟨fun L hL op hop => ⟨?_, fun h9 => opList_offset_le h9 hop⟩, fun op hop => ?_, fun hL t h => ?_⟩
  · exact Nat.le_sub_of_add_le (opList_mem hop).1
  · rw [opList_eight, List.mem_singleton] at hop
    rw [hop]
  · rw [← bufBytes_length] at hL
    have hlast : bufLength s - 1 < bufLength s := by rw [← bufBytes_length]; omega
    rcases h with h | h
    · refine exec_bufferPass_keeps_byte rfl h hlast ?_
      simpa only [bufBytes_length] using rotFwd_getElem?_last s p hL
    · refine exec_bufferPass_keeps_byte rfl h hlast ?_
      simpa only [bufBytes_length] using rotBwd_getElem?_last s p hL

/-! ### The inverse passes (R161, R168) -/

section

variable (o : ByteOrder) {xs : List Byte} {op : Nat × Nat} (hin : op.1 + 8 ≤ xs.length)
include hin

theorem rotateLeftAt_length : (rotateLeftAt o xs op).length = xs.length := writeWindow_length o xs op.1 _ hin

theorem rotateRightAt_length : (rotateRightAt o xs op).length = xs.length := writeWindow_length o xs op.1 _ hin

theorem rotateRightAt_rotateLeftAt (hk : op.2 < 64) : rotateRightAt o (rotateLeftAt o xs op) op = xs := by
  rw [rotateRightAt, rotateLeftAt, readWindow_writeWindow o xs op.1 _ hin, ror64_rol64 _ hk,
    writeWindow_writeWindow o xs op.1 _ _ hin, writeWindow_readWindow o xs op.1 hin]

theorem rotateLeftAt_rotateRightAt (hk : op.2 < 64) : rotateLeftAt o (rotateRightAt o xs op) op = xs := by
  rw [rotateLeftAt, rotateRightAt, readWindow_writeWindow o xs op.1 _ hin, rol64_ror64 _ hk,
    writeWindow_writeWindow o xs op.1 _ _ hin, writeWindow_readWindow o xs op.1 hin]

end

/-- Window operations done in order are undone by their inverses in the reverse order. -/
theorem foldl_windows_restores {f g : List Byte → Nat × Nat → List Byte}
    (hlen : ∀ {xs op}, op.1 + 8 ≤ xs.length → (f xs op).length = xs.length)
    (hgf : ∀ {xs op}, op.1 + 8 ≤ xs.length → op.2 < 64 → g (f xs op) op = xs) {ops : List (Nat × Nat)}
    {xs : List Byte} (h : ∀ op ∈ ops, op.1 + 8 ≤ xs.length ∧ op.2 < 64) :
    ops.reverse.foldl g (ops.foldl f xs) = xs := by
  induction ops generalizing xs with
  | nil => rfl
  | cons op ops ih =>
    obtain ⟨⟨hin, hk⟩, hops⟩ := List.forall_mem_cons.1 h
    calc (op :: ops).reverse.foldl g ((op :: ops).foldl f xs)
        = g (ops.reverse.foldl g (ops.foldl f (f xs op))) op := by
          rw [List.reverse_cons, List.foldl_append, List.foldl_cons, List.foldl_cons, List.foldl_nil]
      _ = g (f xs op) op := by rw [ih (by rwa [hlen hin])]
      _ = xs := hgf hin hk

theorem rotBwd_rotFwd (s : State) (p : Byte) (xs : List Byte) : rotBwd s p (rotFwd s p xs) = xs := by
  rw [rotBwd, rotFwd_length, rotFwd]
  exact foldl_windows_restores (rotateLeftAt_length _) (rotateRightAt_rotateLeftAt _) fun _ => opList_mem

theorem rotFwd_rotBwd (s : State) (p : Byte) (xs : List Byte) : rotFwd s p (rotBwd s p xs) = xs := by
  have h := foldl_windows_restores (rotateRightAt_length s.params.byteOrder) (rotateLeftAt_rotateRightAt _)
    (xs := xs) (ops := (opList s p.toNat xs.length).reverse) fun _ hop => opList_mem (List.mem_reverse.1 hop)
  rw [rotFwd, rotBwd_length, rotBwd]
  rwa [List.reverse_reverse] at h

/-! ### The inverse commands (R168) -/

/-- A command over the buffer that completes keeps the operands of every pass (R63). -/
theorem BufferCommandFrame.sameOperands {s t : State} (h : BufferCommandFrame s t) : SameOperands s t where
  params := by obtain ⟨-, ⟨hparams, -⟩, -⟩ := h; exact hparams
  rounds := by obtain ⟨-, ⟨-, -, -, -, hrounds, -⟩, -⟩ := h; exact hrounds
  key i _ := h.byteAt_eq_of_ne_buf (b := .key) nofun i
  fwd i _ := h.byteAt_eq_of_ne_buf (b := .fwd) nofun i
  inv i _ := h.byteAt_eq_of_ne_buf (b := .inv) nofun i

/-- Two commands whose passes, with the operands of the first state, undo each other restore the buffer. -/
theorem exec_exec_restores {s : State} {i j : Instr} {f g : List Byte → List Byte} (hf : bufferPass s i = some f)
    (hg : ∀ t, SameOperands s t → bufferPass t j = some g) (hgf : g (f (bufBytes s)) = bufBytes s)
    (hc : s.ctxValid = true) (hL : bufLength s ≤ 65536) :
    ∃ t u, exec i s = .next t ∧ exec j t = .next u ∧ ∀ k, byteAt u .buf k = byteAt s .buf k := by
  obtain ⟨t, hst, hframe, hbuf⟩ := exec_bufferPass_completes hf hc hL
  obtain ⟨u, htu, hframe', hbuf'⟩ := exec_bufferPass_completes (hg t hframe.sameOperands)
    (hframe.ctxValid_eq.trans hc) (hframe.bufLength_eq.trans_le hL)
  refine ⟨t, u, hst, htu, hframe.buf_restored hframe' fun k hk => ?_⟩
  rw [hbuf, hgf] at hbuf'
  have hlt : k < (bufBytes s).length := by rw [bufBytes_length]; exact hk
  rw [byteAt_of_bufBytes_eq hbuf' hlt, ← byteAt_of_bufBytes_eq rfl]

/-- Settles O26: each window operation is undone by its inverse, in the reverse order (R165, R168). -/
theorem rotationsUndoEachOther : Obligations.RotationsUndoEachOther := fun s p hc hL =>
  ⟨exec_exec_restores (i := .rotf p) rfl (fun _ h => congrArg some (h.rotBwd_eq p)) (rotBwd_rotFwd s p _) hc hL,
    exec_exec_restores (i := .rotb p) rfl (fun _ h => congrArg some (h.rotFwd_eq p)) (rotFwd_rotBwd s p _) hc hL⟩

end Sys2Proof.Machine

/-! PROOF. INIT of a legal secret and round count (R100, R120, R184). -/

namespace Sys2Proof.Machine

/-- A byte that the memory lists is read as it was written, whatever the draw of the last reset. -/
theorem getD_read_ofBytes (bs : List Byte) {i : Nat} (hi : i < bs.length) (b : Byte) :
    ((Memory.ofBytes bs).read i).getD b = bs.getD i 0 := by
  simp [Memory.read_ofBytes, hi]

/-- Settles O12: INIT loads the key schedule and the tables of the secret, and each byte of the new context is one of
theirs, because they fill its memories. -/
theorem initBuildsContext : Obligations.InitBuildsContext := by
  intro s R hmin hmax hR
  obtain ⟨t, ht⟩ := buildTables_isSome (keySchedule (secretBytes s))
  have htables := tablesInverse_of_buildTables ht
  refine ⟨t, _, ht, exec_init_of_ok (initError_eq_none.2 ⟨hmin, hmax, hR⟩) ht, rfl, ?_, fun i hi => ?_,
    fun p m hp hm => ⟨?_, ?_⟩⟩
  · rw [finish_rounds, loadContext_rounds, BitVec.toNat_setWidth]
    exact Nat.mod_eq_of_lt (by omega)
  · exact getD_read_ofBytes _ (by rw [keySchedule_length]; exact hi) _
  · exact getD_read_ofBytes _ (by rw [htables.fwd_length]; omega) _
  · exact getD_read_ofBytes _ (by rw [htables.inv_length]; omega) _

end Sys2Proof.Machine

/-! SUPPORT. Sequences of commands over the buffer: the passes of a sequence, done one after another with the operands of
its first state, are what the sequence does (R185, R186). -/

namespace Sys2Proof.Machine

/-! ### What no command over the buffer changes -/

/-- The state with a fixed value in each field that a command over the buffer may change. -/
def withoutBuffer (s : State) : State := { s with err := .ok, buf := [], seq := default, draws := 0 }

theorem sameButBuffer_iff {s t : State} : SameButBuffer s t ↔ withoutBuffer t = withoutBuffer s := by
  simp [SameButBuffer, withoutBuffer]

/-- A pass reads the open parameters, the context and the round count only. -/
theorem bufferPass_withoutBuffer (s : State) (i : Instr) : bufferPass (withoutBuffer s) i = bufferPass s i := by
  cases i <;> rfl

/-- Each command stands for the same pass in both states, for every value of ROUNDS. -/
theorem SameButBuffer.bufferPass_eq {s t : State} (h : SameButBuffer s t) (i : Instr) :
    bufferPass t i = bufferPass s i := by
  rw [← bufferPass_withoutBuffer t, sameButBuffer_iff.1 h, bufferPass_withoutBuffer]

/-- The bytes of the buffer and the bytes above it are all the bytes of BUF. -/
theorem byteAt_buf_eq_of_bufBytes_eq {s t : State} (hbytes : bufBytes t = bufBytes s)
    (habove : ∀ i, bufLength s ≤ i → byteAt t .buf i = byteAt s .buf i) (i : Nat) :
    byteAt t .buf i = byteAt s .buf i := by
  by_cases hi : i < bufLength s
  · have hlt : i < (bufBytes s).length := by rw [bufBytes_length]; exact hi
    rw [byteAt_of_bufBytes_eq hbytes hlt, ← byteAt_of_bufBytes_eq rfl]
  · exact habove i (Nat.not_lt.1 hi)

namespace BufferCommandFrame

variable {s t u : State} (h : BufferCommandFrame s t)
include h

theorem err_eq_ok : t.err = .ok := by
  obtain ⟨hok, -, -⟩ := h
  exact hok

theorem sameButBuffer : SameButBuffer s t := by
  obtain ⟨-, hsame, -⟩ := h
  exact hsame

theorem trans (h' : BufferCommandFrame t u) : BufferCommandFrame s u := by
  refine ⟨h'.err_eq_ok, sameButBuffer_iff.2 ?_, fun i hi => ?_⟩
  · rw [sameButBuffer_iff.1 h'.sameButBuffer, sameButBuffer_iff.1 h.sameButBuffer]
  · rw [h'.byteAt_buf_of_ge (h.bufLength_eq.trans_le hi), h.byteAt_buf_of_ge hi]

/-- Two completions from one state that leave the same buffer leave the same for the host to see. -/
theorem agree (h' : BufferCommandFrame s u) (hbytes : bufBytes u = bufBytes t) :
    SameButBuffer t u ∧ u.err = t.err ∧ ∀ i, byteAt u .buf i = byteAt t .buf i := by
  refine ⟨sameButBuffer_iff.2 ?_, h'.err_eq_ok.trans h.err_eq_ok.symm,
    byteAt_buf_eq_of_bufBytes_eq hbytes fun i hi => ?_⟩
  · rw [sameButBuffer_iff.1 h'.sameButBuffer, sameButBuffer_iff.1 h.sameButBuffer]
  · rw [h.bufLength_eq] at hi
    rw [h'.byteAt_buf_of_ge hi, h.byteAt_buf_of_ge hi]

end BufferCommandFrame

/-! ### Sequences of commands -/

theorem execAll_cons {i : Instr} {s t : State} (h : exec i s = .next t) (is : List Instr) :
    execAll (i :: is) s = execAll is t := by
  rw [execAll, h]

/-- The buffer bytes after command `i`, with the operands of `s`; INIT has no pass, and keeps them. -/
def commandBytes (s : State) (xs : List Byte) (i : Instr) : List Byte := (bufferPass s i).getD id xs

/-- After a completed command, any commands over the buffer complete, and do their passes one after another. -/
theorem execAll_completes_of_frame {s : State} (hc : s.ctxValid = true) (hL : bufLength s ≤ 65536) {is : List Instr}
    (his : ∀ i ∈ is, ∀ R, i ≠ .init R) {t : State} (h : BufferCommandFrame s t) :
    ∃ u, execAll is t = .next u ∧ BufferCommandFrame s u ∧ bufBytes u = is.foldl (commandBytes s) (bufBytes t) := by
  induction is generalizing t with
  | nil => exact ⟨t, rfl, h, rfl⟩
  | cons i is ih =>
    obtain ⟨hi, his⟩ := List.forall_mem_cons.1 his
    obtain ⟨f, hf⟩ := (init_or_bufferPass s i).resolve_left fun ⟨R, hR⟩ => hi R hR
    obtain ⟨v, hv, hframe, hbuf⟩ := exec_bufferPass_completes ((h.sameButBuffer.bufferPass_eq i).trans hf)
      (h.ctxValid_eq.trans hc) (h.bufLength_eq.trans_le hL)
    obtain ⟨u, hu, hframe', hbuf'⟩ := ih his (h.trans hframe)
    refine ⟨u, (execAll_cons hv is).trans hu, hframe', ?_⟩
    rw [hbuf', hbuf, List.foldl_cons, commandBytes, hf, Option.getD_some]

/-- With a context and a legal length, a command over the buffer and any others after it complete, and do their passes
one after another. -/
theorem execAll_completes {s : State} {i : Instr} {f : List Byte → List Byte} (hf : bufferPass s i = some f)
    {is : List Instr} (his : ∀ j ∈ is, ∀ R, j ≠ .init R) (hc : s.ctxValid = true) (hL : bufLength s ≤ 65536) :
    ∃ t u, exec i s = .next t ∧ execAll is t = .next u ∧ BufferCommandFrame s u ∧
      bufBytes u = is.foldl (commandBytes s) (f (bufBytes s)) := by
  obtain ⟨t, ht, hframe, hbuf⟩ := exec_bufferPass_completes hf hc hL
  obtain ⟨u, hu, hframe', hbuf'⟩ := execAll_completes_of_frame hc hL his hframe
  exact ⟨t, u, ht, hu, hframe', hbuf ▸ hbuf'⟩

/-- A command whose pass is the passes of a sequence, one after another, does what the sequence does. -/
theorem exec_agrees_with_execAll {s : State} {c : Instr} {g : List Byte → List Byte} (hg : bufferPass s c = some g)
    {is : List Instr} (hne : is ≠ []) (his : ∀ i ∈ is, ∀ R, i ≠ .init R)
    (hpasses : is.foldl (commandBytes s) (bufBytes s) = g (bufBytes s)) (hc : s.ctxValid = true)
    (hL : bufLength s ≤ 65536) :
    ∃ t u, exec c s = .next t ∧ execAll is s = .next u ∧
      SameButBuffer t u ∧ u.err = t.err ∧ ∀ i, byteAt u .buf i = byteAt t .buf i := by
  obtain ⟨i, is, rfl⟩ := List.exists_cons_of_ne_nil hne
  obtain ⟨hi, his⟩ := List.forall_mem_cons.1 his
  obtain ⟨f, hf⟩ := (init_or_bufferPass s i).resolve_left fun ⟨R, hR⟩ => hi R hR
  obtain ⟨t, ht, hframe, hbuf⟩ := exec_bufferPass_completes hg hc hL
  obtain ⟨v, u, hv, hu, hframe', hbuf'⟩ := execAll_completes hf his hc hL
  rw [List.foldl_cons, commandBytes, hf, Option.getD_some] at hpasses
  exact ⟨t, u, ht, (execAll_cons hv is).trans hu, hframe.agree hframe' (hbuf'.trans (hpasses.trans hbuf.symm))⟩

end Sys2Proof.Machine

/-! PROOF. ENCRYPT and DECRYPT (R180 to R187): their results, that each does what its units do as commands of their own,
that DECRYPT undoes ENCRYPT, and the corner cases. -/

namespace Sys2Proof.Machine

/-! ### The results (R180, R181) -/

/-- Settles O29: ENCRYPT completes with its pass, which is the composition of R180. -/
theorem encryptResult : Obligations.EncryptResult := fun _ hc hL =>
  exec_bufferPass_completes (i := .encrypt) rfl hc hL

/-- Settles O30: DECRYPT completes with its pass, which is the composition of R181. -/
theorem decryptResult : Obligations.DecryptResult := fun _ hc hL =>
  exec_bufferPass_completes (i := .decrypt) rfl hc hL

/-! ### The primitive commands (R180, R181, R185, R186) -/

/-- The passes of a round's primitive commands make the round of Encrypt (R180). -/
theorem foldl_encryptRoundCommands (s : State) (rs : List Nat) (xs : List Byte) :
    (rs.flatMap (encryptRoundCommands s)).foldl (commandBytes s) xs = rs.foldl (encryptRound s) xs :=
  List.foldl_flatMap

/-- The passes of a round's primitive commands make the round of Decrypt (R181). -/
theorem foldl_decryptRoundCommands (s : State) (rs : List Nat) (xs : List Byte) :
    (rs.flatMap (decryptRoundCommands s)).foldl (commandBytes s) xs = rs.foldl (decryptRound s) xs :=
  List.foldl_flatMap

theorem ne_init_of_mem_encryptRoundCommands {s : State} {r : Nat} {i : Instr} (h : i ∈ encryptRoundCommands s r)
    (R : BitVec 16) : i ≠ .init R := by
  rintro rfl
  simp [encryptRoundCommands] at h

theorem ne_init_of_mem_decryptRoundCommands {s : State} {r : Nat} {i : Instr} (h : i ∈ decryptRoundCommands s r)
    (R : BitVec 16) : i ≠ .init R := by
  rintro rfl
  simp [decryptRoundCommands] at h

/-- Settles O31: the passes of WHITEN and of the rounds' commands make the pass of ENCRYPT. -/
theorem encryptEqualsItsPrimitives : Obligations.EncryptEqualsItsPrimitives := by
  intro s hc hL
  refine exec_agrees_with_execAll rfl (List.cons_ne_nil _ _) (List.forall_mem_cons.2 ⟨nofun, fun i hi => ?_⟩) ?_ hc hL
  · obtain ⟨r, -, hr⟩ := List.mem_flatMap.1 hi
    exact ne_init_of_mem_encryptRoundCommands hr
  · exact foldl_encryptRoundCommands s _ (whitenBytes s (bufBytes s))

/-- Settles O32: the passes of the rounds' commands and of WHITEN make the pass of DECRYPT. -/
theorem decryptEqualsItsPrimitives : Obligations.DecryptEqualsItsPrimitives := by
  intro s hc hL
  refine exec_agrees_with_execAll rfl (List.concat_ne_nil _ _) (List.forall_mem_append.2 ⟨fun i hi => ?_, ?_⟩) ?_ hc hL
  · obtain ⟨r, -, hr⟩ := List.mem_flatMap.1 hi
    exact ne_init_of_mem_decryptRoundCommands hr
  · exact List.forall_mem_singleton.2 nofun
  · rw [List.foldl_append, foldl_decryptRoundCommands]
    rfl

/-! ### DECRYPT undoes ENCRYPT (R183) -/

theorem whitenBytes_whitenBytes (s : State) (xs : List Byte) : whitenBytes s (whitenBytes s xs) = xs := by
  refine List.ext_getElem (by simp) fun i _ _ => ?_
  rw [whitenBytes_getElem, whitenBytes_getElem, whiten_byte_twice]

theorem subRev_subFwd {s : State} (htables : TablesOk s) (p : Byte) (xs : List Byte) :
    subRev s p (subFwd s p xs) = xs := by
  rw [subRev, subFwd, List.map_map]
  exact List.map_id'' (fun b => (htables p b).1) xs

/-- Each unit of a round of Decrypt undoes the one of the round of Encrypt, last to first. -/
theorem decryptRound_encryptRound {s : State} (htables : TablesOk s) (xs : List Byte) (r : Nat) :
    decryptRound s (encryptRound s xs r) r = xs := by
  rw [decryptRound, encryptRound, rotFwd_rotBwd, whitenBytes_whitenBytes, rotBwd_rotFwd, subRev_subFwd htables]

/-- Steps done in order are undone by their inverses in the reverse order. -/
theorem foldl_reverse_restores {α β : Type} {f g : β → α → β} (hgf : ∀ b a, g (f b a) a = b) (l : List α) (b : β) :
    l.reverse.foldl g (l.foldl f b) = b := by
  induction l generalizing b with
  | nil => rfl
  | cons a l ih => rw [List.foldl_cons, List.reverse_cons, List.foldl_append, ih, List.foldl_cons, List.foldl_nil, hgf]

theorem decryptBytes_encryptBytes {s : State} (htables : TablesOk s) (R : Nat) (xs : List Byte) :
    decryptBytes s R (encryptBytes s R xs) = xs := by
  rw [decryptBytes, encryptBytes, foldl_reverse_restores (decryptRound_encryptRound htables), whitenBytes_whitenBytes]

/-- Settles O33: DECRYPT runs with the operands that ENCRYPT ran with, and its pass undoes that of ENCRYPT. -/
theorem decryptUndoesEncrypt : Obligations.DecryptUndoesEncrypt := by
  intro s hc hL htables
  obtain ⟨t, u, ht, hu, hframe, hbuf⟩ := execAll_completes (i := .encrypt) (is := [.decrypt]) rfl
    (List.forall_mem_singleton.2 nofun) hc hL
  obtain ⟨v, hv, -⟩ := exec_ends .decrypt t
  obtain rfl : v = u := Host.Outcome.next.inj ((execAll_cons hv []).symm.trans hu)
  refine ⟨t, v, ht, hv, byteAt_buf_eq_of_bufBytes_eq ?_ fun i hi => hframe.byteAt_buf_of_ge hi⟩
  exact hbuf.trans (decryptBytes_encryptBytes htables s.rounds.toNat (bufBytes s))

/-! ### Corner cases (R187) -/

/-- A command whose pass keeps the bytes of the buffer completes and changes no byte of BUF. -/
theorem exec_keeps_buf {s : State} {i : Instr} {f : List Byte → List Byte} (hf : bufferPass s i = some f)
    (hid : f (bufBytes s) = bufBytes s) (hc : s.ctxValid = true) (hL : bufLength s ≤ 65536) :
    ∃ t, exec i s = .next t ∧ t.err = .ok ∧ ∀ j, byteAt t .buf j = byteAt s .buf j := by
  obtain ⟨t, ht, hframe, hbuf⟩ := exec_bufferPass_completes hf hc hL
  exact ⟨t, ht, hframe.err_eq_ok,
    byteAt_buf_eq_of_bufBytes_eq (hbuf.trans hid) fun j hj => hframe.byteAt_buf_of_ge hj⟩

theorem rotFwd_of_lt_eight (s : State) (p : Byte) {xs : List Byte} (h : xs.length < 8) : rotFwd s p xs = xs := by
  rw [rotFwd, opList_of_lt_eight s _ h, List.foldl_nil]

theorem rotBwd_of_lt_eight (s : State) (p : Byte) {xs : List Byte} (h : xs.length < 8) : rotBwd s p xs = xs := by
  rw [rotBwd, opList_of_lt_eight s _ h, List.reverse_nil, List.foldl_nil]

/-- Settles O34: with no rounds the two folds are empty; below 8 bytes the operation list is empty; a pass keeps the
length, so it keeps an empty buffer. -/
theorem degenerateLengthsAndRounds : Obligations.DegenerateLengthsAndRounds := by
  intro s
  refine ⟨fun hR => ?_, fun hc hL p => ?_, fun hc hL i hi => ?_⟩
  · have hrounds : s.rounds.toNat = 0 := congrArg BitVec.toNat hR
    constructor
    · rw [exec_eq_runOnBuffer (i := .encrypt) rfl, hrounds]
      rfl
    · rw [exec_eq_runOnBuffer (i := .decrypt) rfl, hrounds]
      rfl
  · have hlen : (bufBytes s).length < 8 := by rw [bufBytes_length]; exact hL
    exact ⟨exec_keeps_buf (i := .rotf p) rfl (rotFwd_of_lt_eight s p hlen) hc (by omega),
      exec_keeps_buf (i := .rotb p) rfl (rotBwd_of_lt_eight s p hlen) hc (by omega)⟩
  · obtain ⟨f, hf⟩ := (init_or_bufferPass s i).resolve_left fun ⟨R, hR⟩ => hi R hR
    have hnil : bufBytes s = [] := List.length_eq_zero_iff.1 ((bufBytes_length s).trans hL)
    have hid : f (bufBytes s) = bufBytes s := by
      rw [hnil]
      exact List.length_eq_zero_iff.1 (bufferPass_length hf [])
    exact exec_keeps_buf hf hid hc (by omega)

end Sys2Proof.Machine

/-! PROOF. The errors: which one each command reports (R203 to R208), and that a command that ends with one has changed
nothing but ERR (R201). -/

namespace Sys2Proof.Machine

/-! ### The checks, one after another (R203) -/

theorem initError_zero (r : Nat) : initError 0 r = some .emptySecret := rfl

theorem initError_of_length_gt {l : Nat} (r : Nat) (hl : 256 < l) : initError l r = some .lenRange := by
  rw [initError, if_neg (by omega), if_pos hl]

theorem initError_of_rounds_gt {l r : Nat} (h1 : 1 ≤ l) (hl : l ≤ 256) (hr : 1024 < r) :
    initError l r = some .roundsRange := by
  rw [initError, if_neg (by omega), if_neg (by omega), if_pos hr]

theorem bufferError_no_context (L : Nat) : bufferError false L = some .notInitialized := rfl

theorem bufferError_of_length_gt {L : Nat} (hL : 65536 < L) : bufferError true L = some .lenRange := by
  rw [bufferError, if_neg (by decide), if_pos hL]

theorem commandError_of_ne_init (s : State) {i : Instr} (hi : ∀ R, i ≠ .init R) :
    commandError s i = bufferError s.ctxValid (bufLength s) := by
  obtain ⟨f, hf⟩ := (init_or_bufferPass s i).resolve_left fun ⟨R, hR⟩ => hi R hR
  exact commandError_of_bufferPass hf

/-- Settles O14: the error of the first check that fails, raised before anything is written. -/
theorem errorPriority : Obligations.ErrorPriority := by
  refine fun s => ⟨fun w rest hp hill => ?_, fun R => ⟨fun h0 => ?_, fun hl => ?_, fun h1 hl hr => ?_⟩,
    fun i hi => ⟨fun hc => ?_, fun hc hL => ?_⟩⟩
  · obtain ⟨why, hw⟩ := (exists_illegal_iff w).2 fun ⟨i, hi⟩ => hill i hi
    exact step_illegal_word hp hw
  · exact exec_of_commandError (by rw [commandError_init, h0, initError_zero])
  · exact exec_of_commandError (initError_of_length_gt _ hl)
  · exact exec_of_commandError (initError_of_rounds_gt h1 hl hr)
  · exact exec_of_commandError (by rw [commandError_of_ne_init s hi, hc, bufferError_no_context])
  · exact exec_of_commandError (by rw [commandError_of_ne_init s hi, hc, bufferError_of_length_gt hL])

/-! ### The frame of an error (R201) -/

/-- Of the three ways in which a command ends, only the failed check leaves an error in ERR. -/
theorem CommandEnds.eq_raiseError {i : Instr} {s t : State} (h : CommandEnds s i t) (herr : t.err ≠ .ok) :
    t = raiseError t.err s := by
  cases h with
  | failed he => rfl
  | pass hf he => exact absurd (finish_err _) herr
  | loaded he ht => exact absurd (finish_err _) herr

/-- Settles O15: a command by the way in which it ends; a CMD write by its word, which is a command's or illegal. -/
theorem failedCommandChangesOnlyErr : Obligations.FailedCommandChangesOnlyErr := by
  refine ⟨fun i s t h herr => (commandEnds_of_exec h).eq_raiseError herr, fun w rest s t hp h herr => ?_⟩
  rcases hw : decode w with i | why
  · have hexec : exec i (setPort rest s) = .next t := (stepRunsDecodedCommand s w i rest hp hw).symm.trans h
    exact (commandEnds_of_exec hexec).eq_raiseError herr
  · obtain rfl := Host.Outcome.next.inj ((step_illegal_word hp hw).symm.trans h)
    rfl

end Sys2Proof.Machine

/-! PROOF. The end of every command with the bound on the windows of a rotation pass (R238), and the state after a reset
event (R230 to R232). -/

namespace Sys2Proof.Machine

/-! ### The number of windows (R163, R238) -/

@[simp] theorem interiorOffsets_length (start max : Nat) :
    (interiorOffsets start max).length = (max - start + 7) / 8 := by
  rw [interiorOffsets, List.length_map, List.length_range]

theorem opList_length_of_nine_le (s : State) (p : Nat) {L : Nat} (hL : 9 ≤ L) :
    (opList s p L).length = 2 + (L - 8 - interiorStart s p + 7) / 8 := by
  rw [opList_of_nine_le s p hL, List.length_cons, List.length_cons, List.length_map, interiorOffsets_length]
  omega

/-- The interior windows are most when the first one starts at 0. -/
theorem opList_length_le (s : State) (p L : Nat) :
    (opList s p L).length ≤ if L < 8 then 0 else 2 + (L - 8 + 7) / 8 := by
  split
  next hL => rw [opList_of_lt_eight s p hL, List.length_nil]
  next hL =>
    rcases (Nat.le_of_not_lt hL).eq_or_lt with rfl | hL9
    · rw [opList_eight, List.length_singleton]
      decide
    · rw [opList_length_of_nine_le s p hL9]
      omega

/-- Settles O54: a command ends by a failed check, with its pass, or with the tables, which are always found (R125); an
operation list has its two outer windows and one window for each interior offset. -/
theorem everyCommandEnds : Obligations.EveryCommandEnds := by
  refine ⟨fun i s => ?_, fun s p L => opList_length_le s p.toNat L⟩
  obtain ⟨t, ht, -⟩ := exec_ends i s
  exact ⟨t, ht⟩

/-! ### The reset event (R230 to R232) -/

/-- A reset takes the same effect between commands and during one: the command it abandons leaves nothing. -/
theorem perform_of_isReset {e : Event} (he : e.IsReset) (s : State) : perform e s = .next (takeReset s) := by
  rcases he with rfl | ⟨w, rfl⟩ <;> rfl

/-- Settles O43: the step takes the event from the port and then resets, which keeps the rest of the port. -/
theorem resetEvent : Obligations.ResetEvent := by
  intro s e rest hp he
  have hstep : step s = .next (takeReset (setPort rest s)) := (step_of_port hp).trans (perform_of_isReset he _)
  exact ⟨_, hstep, takeReset_ctxValid _, takeReset_err _, takeReset_secretLen _, takeReset_bufLen _, takeReset_rounds _,
    bankOf_takeReset _, byteAt_takeReset _, takeReset_port _, takeReset_replies _, takeReset_params _⟩

end Sys2Proof.Machine
